-- ==== Sys2Proof/Word.lean ====
section
/-! DEFINITION. The word types of the core: the byte (register, memory cell, operand) and the 9-bit program counter. -/

namespace Sys2Proof

/-- A byte: an unsigned 8-bit quantity, the width of registers, cells and operands (R5 `XLEN`, R7, R11). -/
abbrev Byte := BitVec 8

/-- A program-counter value: 9 bits (R5 `PC_BITS`, R15). -/
abbrev PcWord := BitVec 9

/-- `zext_9(v)` of R7: a byte widened to a program-counter value with a zero bit. -/
def zext9 (v : Byte) : PcWord := v.zeroExtend 9

/-- The number a byte stands for does not change when it is widened. -/
@[simp] theorem zext9_toNat (v : Byte) : (zext9 v).toNat = v.toNat := by
  simp [zext9]
  omega

end Sys2Proof
end

