-- ==== Sys2Proof/Config.lean ====
section
/-! DEFINITION. The parameters of the hardware: the fixed ones of R5 as constants, the open ones of R6 as a record. -/

namespace Sys2Proof

/-- `NREG`, the register count (R5, R10). -/
def numRegs : Nat := 8

/-- `MEM_SIZE`, the number of memory cells (R5, R20). -/
def memSize : Nat := 256

/-- `STACK_TOP`, the reset value of register 7 and the underflow limit of pop (R5, R121). -/
def stackTop : Byte := 0xF4

/-- `PC_RESET`, the entry point (R5, R180; D6). -/
def pcReset : PcWord := 0

/-- The open parameters of R6 (D1, D2). Their default values stand in Decode.lean (`Config.default`); HLT, LDI and PRN
have the opcode bytes the source fixes and no parameter. -/
structure Config where
  opcMul : Byte
  opcAdd : Byte
  opcPush : Byte
  opcPop : Byte
  opcCall : Byte
  opcRet : Byte
  opcNop : Byte
  /-- HAS_SUBDIV: the decoder also accepts SUB and DIV. -/
  hasSubdiv : Bool
  /-- Used only when `hasSubdiv`. -/
  opcSub : Byte
  /-- Used only when `hasSubdiv`. -/
  opcDiv : Byte
  deriving DecidableEq, Repr

/-- The rows of the opcode table by name (R56, R57). -/
inductive Mnemonic where
  | hlt | ldi | prn | mul | add | push | pop | call | ret | nop | sub | div
  deriving DecidableEq, Repr

/-- The four instruction formats (R51 to R54). -/
inductive Format where
  /-- No operand, length 1 (R51). -/
  | n
  /-- One register operand, length 2 (R52). -/
  | r
  /-- Register and immediate, length 3 (R53). -/
  | ri
  /-- Two register operands, length 3 (R54). -/
  | rr
  deriving DecidableEq, Repr

/-- One row of the opcode table: the byte that is compared whole, and the row's name (R56). -/
structure OpcodeRow where
  opcode : Byte
  mnemonic : Mnemonic
  deriving DecidableEq, Repr

end Sys2Proof
end

