-- ==== Sys2Proof/Syntax.lean ====
section
/-! DEFINITION. The instructions of the core's byte-code, one constructor for each row of spec/opcode_table.json. -/

namespace Sys2Proof

/-- An instruction with its operand bytes as they are encoded. A register operand is the WHOLE operand byte (R55), so a
byte of 8 to 255 is an operand too: the instruction that carries it raises InvalidRegister (R74, R152). -/
inductive Instr where
  /-- HLT, halt (R78). -/
  | hlt
  /-- LDI r, imm, load immediate (R90). -/
  | ldi (r imm : Byte)
  /-- PRN r, print register (R91). -/
  | prn (r : Byte)
  /-- MUL a, b, multiply registers (R108). -/
  | mul (a b : Byte)
  /-- ADD a, b, add registers (R107). -/
  | add (a b : Byte)
  /-- PUSH r, push register (R123). -/
  | push (r : Byte)
  /-- POP r, pop into register (R124). -/
  | pop (r : Byte)
  /-- CALL r, call the subroutine whose address the register holds (R135). -/
  | call (r : Byte)
  /-- RET, return from subroutine (R136). -/
  | ret
  /-- NOP, no operation (R79). -/
  | nop
  /-- SUB a, b, subtract registers; optional, HAS_SUBDIV (R109). -/
  | sub (a b : Byte)
  /-- DIV a, b, divide registers; optional, HAS_SUBDIV (R110). -/
  | div (a b : Byte)
  deriving DecidableEq, Repr

/-- The operand bytes an instruction uses as register indices, in encoding order (R52 to R54, R74). LDI's immediate is
none of them. -/
def Instr.regOperands : Instr → List Byte
  | .hlt => []
  | .ldi r _ => [r]
  | .prn r => [r]
  | .mul a b => [a, b]
  | .add a b => [a, b]
  | .push r => [r]
  | .pop r => [r]
  | .call r => [r]
  | .ret => []
  | .nop => []
  | .sub a b => [a, b]
  | .div a b => [a, b]

/-- The instructions that exist only when HAS_SUBDIV is true (R57, R109, R110). -/
def Instr.optional : Instr → Bool
  | .hlt => false
  | .ldi _ _ => false
  | .prn _ => false
  | .mul _ _ => false
  | .add _ _ => false
  | .push _ => false
  | .pop _ => false
  | .call _ => false
  | .ret => false
  | .nop => false
  | .sub _ _ => true
  | .div _ _ => true

end Sys2Proof
end

