-- ==== Sys2Proof/Decode.lean ====
section
/-! DEFINITION. The opcode table, the decoder (total on any bytes, rejecting by name), the encoder and the assembly
spelling (30_encoding.md). -/

namespace Sys2Proof

/-! ## The opcode table -/

/-- The default values of the open parameters (R6). PRESUMED (log 2): the spec itself marks them as general knowledge. -/
def Config.default : Config where
  opcMul := 0xA2
  opcAdd := 0xA0
  opcPush := 0x45
  opcPop := 0x46
  opcCall := 0x50
  opcRet := 0x11
  opcNop := 0x00
  hasSubdiv := false
  opcSub := 0xA1
  opcDiv := 0xA3

/-- A configuration with the two optional rows in force (R57). -/
def Config.withSubdiv (c : Config) : Config := { c with hasSubdiv := true }

/-- The opcode byte of a row: three the source fixes, nine parameters (R56, R57). -/
def Config.opcodeOf (c : Config) : Mnemonic → Byte
  | .hlt => 0x01
  | .ldi => 0x82
  | .prn => 0x47
  | .mul => c.opcMul
  | .add => c.opcAdd
  | .push => c.opcPush
  | .pop => c.opcPop
  | .call => c.opcCall
  | .ret => c.opcRet
  | .nop => c.opcNop
  | .sub => c.opcSub
  | .div => c.opcDiv

/-- The rows in force, in the order of the source's table: the ten base rows (R56), and with HAS_SUBDIV the two optional
rows (R57). -/
def Config.mnemonics (c : Config) : List Mnemonic :=
  [.hlt, .ldi, .prn, .mul, .add, .push, .pop, .call, .ret, .nop] ++ if c.hasSubdiv then [.sub, .div] else []

/-- The opcode table in force (R21, R56, R57). -/
def Config.table (c : Config) : List OpcodeRow := c.mnemonics.map fun m => ⟨c.opcodeOf m, m⟩

/-- The constraint of R6: all opcode bytes in use are pairwise distinct (the three fixed bytes among them). -/
abbrev Config.wf (c : Config) : Prop := (c.table.map OpcodeRow.opcode).Nodup

/-- The decoder's lookup: all eight bits of the byte are compared with the rows (R58, R72). DESIGN CHOICE (log 8): should
two rows of a configuration outside R6's constraint share a byte, the earlier row of the table answers. -/
def Config.lookup (c : Config) (op : Byte) : Option Mnemonic :=
  (c.table.find? fun row => row.opcode == op).map OpcodeRow.mnemonic

/-- The format column of the table (R51 to R54, R56, R57). -/
def Mnemonic.format : Mnemonic → Format
  | .hlt => .n
  | .ldi => .ri
  | .prn => .r
  | .mul => .rr
  | .add => .rr
  | .push => .r
  | .pop => .r
  | .call => .r
  | .ret => .n
  | .nop => .n
  | .sub => .rr
  | .div => .rr

/-- How many operand bytes follow the opcode: from the row's format alone (R50, R58). -/
def Format.operandCount : Format → Nat
  | .n => 0
  | .r => 1
  | .ri => 2
  | .rr => 2

/-- The instruction a row makes of its operand bytes; a format with fewer operands leaves the others unused (R51 to R54). -/
def Mnemonic.build (m : Mnemonic) (b1 b2 : Byte) : Instr :=
  match m with
  | .hlt => .hlt
  | .ldi => .ldi b1 b2
  | .prn => .prn b1
  | .mul => .mul b1 b2
  | .add => .add b1 b2
  | .push => .push b1
  | .pop => .pop b1
  | .call => .call b1
  | .ret => .ret
  | .nop => .nop
  | .sub => .sub b1 b2
  | .div => .div b1 b2

/-! ## The decoder -/

/-- Why bytes are no instruction. -/
inductive DecodeError where
  /-- The byte `k` places after the opcode byte does not exist (R73). -/
  | missingByte (k : Nat)
  /-- The opcode byte matches no row of the table in force (R60, R72). -/
  | invalidOpcode (op : Byte)
  deriving DecidableEq, Repr

/-- The decoder over any source of bytes: `read k` is the byte `k` places after the opcode byte. It reads the opcode,
finds the row, then reads exactly the row's operand bytes in rising order (R70 phases 1 to 3, R72, R73). -/
def decodeFrom (c : Config) (read : Nat → Option Byte) : Except DecodeError Instr :=
  match read 0 with
  | none => .error (.missingByte 0)
  | some op =>
    match c.lookup op with
    | none => .error (.invalidOpcode op)
    | some m =>
      match m.format.operandCount with
      | 0 => .ok (m.build 0 0)
      | 1 =>
        match read 1 with
        | none => .error (.missingByte 1)
        | some b1 => .ok (m.build b1 0)
      | _ =>
        match read 1 with
        | none => .error (.missingByte 1)
        | some b1 =>
          match read 2 with
          | none => .error (.missingByte 2)
          | some b2 => .ok (m.build b1 b2)

/-- The decoder on a list of bytes: the instruction its first bytes encode; bytes after it are not looked at (R50, R59). -/
def decode (c : Config) (bytes : List Byte) : Except DecodeError Instr := decodeFrom c fun k => bytes[k]?

/-! ## The encoder -/

/-- The row an instruction belongs to. -/
def Instr.mnemonic : Instr → Mnemonic
  | .hlt => .hlt
  | .ldi _ _ => .ldi
  | .prn _ => .prn
  | .mul _ _ => .mul
  | .add _ _ => .add
  | .push _ => .push
  | .pop _ => .pop
  | .call _ => .call
  | .ret => .ret
  | .nop => .nop
  | .sub _ _ => .sub
  | .div _ _ => .div

/-- The length of an instruction in bytes: 1, 2 or 3 (R50). -/
def Instr.length (i : Instr) : Nat := 1 + i.mnemonic.format.operandCount

/-- The bytes of an instruction at rising addresses: the table of R62, column "bytes" (R33, R50 to R54). -/
def encode (c : Config) : Instr → List Byte
  | .hlt => [0x01]
  | .ldi r imm => [0x82, r, imm]
  | .prn r => [0x47, r]
  | .mul a b => [c.opcMul, a, b]
  | .add a b => [c.opcAdd, a, b]
  | .push r => [c.opcPush, r]
  | .pop r => [c.opcPop, r]
  | .call r => [c.opcCall, r]
  | .ret => [c.opcRet]
  | .nop => [c.opcNop]
  | .sub a b => [c.opcSub, a, b]
  | .div a b => [c.opcDiv, a, b]

/-! ## The host's numbering of a word -/

/-- The three bytes (the longest instruction) of a word as spec/opcode_table.json numbers its bits: byte `k` has bits
`8k` to `8k + 7`; bits from `nbits` upward are 0. -/
def tableBytes (nbits w : Nat) : List Byte :=
  let v := w % 2 ^ nbits
  [BitVec.ofNat 8 v, BitVec.ofNat 8 (v / 2 ^ 8), BitVec.ofNat 8 (v / 2 ^ 16)]

/-- The instruction the decoder reads from a word of spec/opcode_table.json. The table lists all twelve rows, so the
decoder runs with the two optional rows in force; on the ten base rows that makes no difference (log 6). -/
def decodeTableWord (nbits w : Nat) : Option Instr :=
  (decode Config.default.withSubdiv (tableBytes nbits w)).toOption

/-! ## The assembly spelling (R62) -/

/-- A register operand as R62 writes it: `R` and the index. -/
def regText (r : Byte) : String := "R" ++ toString r.toNat

/-- The row's name in capitals, as spec/opcode_table.json spells it (R62). -/
def Mnemonic.text : Mnemonic → String
  | .hlt => "HLT"
  | .ldi => "LDI"
  | .prn => "PRN"
  | .mul => "MUL"
  | .add => "ADD"
  | .push => "PUSH"
  | .pop => "POP"
  | .call => "CALL"
  | .ret => "RET"
  | .nop => "NOP"
  | .sub => "SUB"
  | .div => "DIV"

/-- The assembly spelling of an instruction: the name, then the operands in encoding order separated by commas, the
destination first (R62; D23). -/
def Instr.asmText (i : Instr) : String :=
  match i with
  | .hlt => i.mnemonic.text
  | .ldi r imm => i.mnemonic.text ++ " " ++ regText r ++ ", " ++ toString imm.toNat
  | .prn r => i.mnemonic.text ++ " " ++ regText r
  | .mul a b => i.mnemonic.text ++ " " ++ regText a ++ ", " ++ regText b
  | .add a b => i.mnemonic.text ++ " " ++ regText a ++ ", " ++ regText b
  | .push r => i.mnemonic.text ++ " " ++ regText r
  | .pop r => i.mnemonic.text ++ " " ++ regText r
  | .call r => i.mnemonic.text ++ " " ++ regText r
  | .ret => i.mnemonic.text
  | .nop => i.mnemonic.text
  | .sub a b => i.mnemonic.text ++ " " ++ regText a ++ ", " ++ regText b
  | .div a b => i.mnemonic.text ++ " " ++ regText a ++ ", " ++ regText b

end Sys2Proof
end

