-- ==== Sys2Proof/Machine/State.lean ====
section
/-! DEFINITION. The state of the machine (10_state.md), the record of a fault, the reasons a step has no next state, and
the state after reset. -/

namespace Sys2Proof.Machine

/-- The six causes of a fault, a closed list (R150). An instruction that raises one TAKES it: the step answers a next
state whose fault record is set (R158; log 3). -/
inductive Cause where
  /-- The opcode byte matches no row of the table (R151). -/
  | invalidOpcode
  /-- A register operand byte is 8 to 255 (R152). -/
  | invalidRegister
  /-- An address lies outside 0 to 255 (R153). -/
  | memoryFault
  /-- The ALU is asked for an operation it has not (R154); no instruction asks for one. -/
  | unsupportedOperation
  /-- The divisor register of a DIV holds zero (R155). -/
  | divisionByZero
  /-- A pop with the stack pointer at or above 0xF4 (R156). -/
  | stackUnderflow
  deriving DecidableEq, Repr

/-- What `raise <Cause>(info)` says before it is recorded (R7). -/
structure Raised where
  cause : Cause
  /-- The offending value, an integer: -1 is one of them (R157). -/
  info : Int
  deriving DecidableEq, Repr

/-- The fault record `(cause, info, at)` (R17). -/
structure FaultRecord where
  cause : Cause
  info : Int
  /-- The record's `at`: the value of `pc` when the fault was raised (R157). -/
  atPc : PcWord
  deriving DecidableEq, Repr

/-- Memory as (address, byte) pairs in one canonical form (`Memory.wf`, Machine/Ops.lean): addresses rising, none listed
whose byte is what an unlisted address reads as. -/
abbrev Memory := List Host.Cell

/-- All the state the spec gives the machine (R10, R14, R16, R17, R19, R20), and the configuration the machine was built
with (R6, R21; log 1), which no step changes. The stack pointer is register 7 itself (R13). -/
structure State where
  /-- The open parameters: the model's own field, constant in every run (log 1). -/
  cfg : Config
  /-- The register file (R10). -/
  x : Vector Byte 8
  /-- The program counter (R14, R15). -/
  pc : PcWord
  /-- The running flag (R16). -/
  running : Bool
  /-- The fault record (R17). -/
  fault : Option FaultRecord
  /-- The output history, oldest first (R19). -/
  out : List Byte
  /-- The memory array (R20). -/
  mem : Memory
  deriving DecidableEq, Repr

/-- Why there is no step: the two terminal statuses of R18. The step relation has no successor there (R77). -/
inductive Fault where
  /-- Raised by `step` in status Halted: no step exists (R76, R77). Safe: the spec says so. -/
  | halted
  /-- Raised by `step` in status Faulted: no step exists (R77, R161). Safe: the spec says so. -/
  | faulted
  deriving DecidableEq, Repr

/-- Why an instruction has no meaning in the model. -/
inductive Refusal where
  /-- Raised by an arm of `exec` whose instruction has no meaning yet. Safe: the model stops. No arm raises it today. -/
  | notModelled (mnemonic : String)
  deriving DecidableEq, Repr

/-- The state right after reset of a machine built with configuration `c`: the table of R23 (R180). Memory lists no
cell, so every cell reads 0. -/
def State.resetWith (c : Config) : State where
  cfg := c
  x := #v[0, 0, 0, 0, 0, 0, 0, stackTop]
  pc := pcReset
  running := true
  fault := none
  out := []
  mem := []

/-- The state right after reset (R23, R180), of the machine with the default parameters of R6. -/
def State.reset : State := State.resetWith Config.default

end Sys2Proof.Machine
end

