-- ==== Sys2Proof/Machine/Flags.lean ====
section
/-! DEFINITION. The running flag, the only flag of the machine (R16), and the status it gives together with the fault
record (R18). There is no condition code: no instruction computes one (R16). -/

namespace Sys2Proof.Machine

/-- `running <- 0` (R7, R78). -/
def State.clearRunning (s : State) : State := { s with running := false }

/-- The status of the machine (R9, R18). -/
inductive Status where
  | running
  | halted
  | faulted
  deriving DecidableEq, Repr

/-- The status as R18's table gives it. DESIGN CHOICE (log 4): the pair the table calls unreachable (a fault record and a
cleared flag) counts as Faulted; the table says it cannot step either. -/
def State.status (s : State) : Status :=
  match s.fault, s.running with
  | none, true => .running
  | none, false => .halted
  | some _, _ => .faulted

end Sys2Proof.Machine
end

