-- ==== Sys2Proof/Machine/Operands.lean ====
section
/-! DEFINITION. The operand forms: a register operand byte as a register index, and the register file behind it. The one
other form, LDI's immediate, is the operand byte itself (R55). -/

namespace Sys2Proof.Machine

/-- The index a register operand byte names: the whole byte, 0 to 7; a byte of 8 to 255 raises InvalidRegister with that
byte (R55, R74, R152). -/
def regIndex (b : Byte) : Except Raised (Fin 8) :=
  if h : b.toNat < 8 then .ok ⟨b.toNat, h⟩ else .error ⟨.invalidRegister, b.toNat⟩

/-- Register 7, the stack-pointer register (R5 `SP_REG`, R13). -/
def spReg : Fin 8 := 7

/-- `x[i]` read (R7, R12). No register is hardwired (R10). -/
def State.reg (s : State) (i : Fin 8) : Byte := s.x[i]

/-- `x[i] <- v` (R7, R12). -/
def State.setReg (s : State) (i : Fin 8) (v : Byte) : State := { s with x := s.x.set i v }

/-- `sp`, another spelling of `x[7]` (R7, R13). -/
def State.sp (s : State) : Byte := s.reg spReg

/-- `sp <- v`, which is `x[7] <- v` (R7, R13). -/
def State.setSp (s : State) (v : Byte) : State := s.setReg spReg v

end Sys2Proof.Machine
end

