-- ==== Sys2Proof/Machine/Ops.lean ====
section
/-! DEFINITION. The named operations every instruction is made of: memory, the program counter, taking a fault, reset,
push and pop. -/

namespace Sys2Proof.Machine

/-! ## Memory -/

/-- What an unlisted address reads as: the reset content of a cell, 0 (R23). -/
def Memory.unlisted : Byte := 0

/-- The canonical form: addresses strictly rising, each below 256 (R20), no entry equal to what an unlisted address
reads as. -/
abbrev Memory.wf (m : Memory) : Prop :=
  m.Pairwise (fun c d => c.1 < d.1) ∧ ∀ c ∈ m, c.1 < memSize ∧ c.2 ≠ Memory.unlisted

/-- The byte of cell `a` (R20). -/
def Memory.read : Memory → Nat → Byte
  | [], _ => Memory.unlisted
  | (k, v) :: m, a => if k = a then v else Memory.read m a

/-- The cells with `v` put in front of those above its address, or nothing put when `v` is what an unlisted cell reads as. -/
def Memory.put (a : Nat) (v : Byte) (m : Memory) : Memory := if v = Memory.unlisted then m else (a, v) :: m

/-- Memory with cell `a` holding `v` and every other cell as before (R31); it keeps the canonical form. -/
def Memory.write : Memory → Nat → Byte → Memory
  | [], a, v => Memory.put a v []
  | (k, w) :: m, a, v =>
    if a < k then Memory.put a v ((k, w) :: m)
    else if k = a then Memory.put a v m
    else (k, w) :: Memory.write m a v

/-- `MemRead(addr, 1)`: the byte, or MemoryFault with the address when it lies above 255 (R7, R30). -/
def State.memRead (s : State) (a : Nat) : Except Raised Byte :=
  if a < memSize then .ok (s.mem.read a) else .error ⟨.memoryFault, a⟩

/-- `MemWrite(addr, 1, v)`: the cell changed, or MemoryFault with the address when it lies above 255 (R7, R31). -/
def State.memWrite (s : State) (a : Nat) (v : Byte) : Except Raised State :=
  if a < memSize then .ok { s with mem := s.mem.write a v } else .error ⟨.memoryFault, a⟩

/-! ## The program counter and the output -/

/-- `pc <- pc + width` (R75). From a `pc` of a successful fetch it never wraps (R15; log 7). -/
def State.advance (s : State) (width : Nat) : State := { s with pc := s.pc + BitVec.ofNat 9 width }

/-- `pc <- target`, a control transfer (R75). -/
def State.jump (s : State) (target : PcWord) : State := { s with pc := target }

/-- `out <- out ++ [v]` (R7, R19). -/
def State.emit (s : State) (v : Byte) : State := { s with out := s.out ++ [v] }

/-! ## Taking a fault, and reset -/

/-- Fault entry: `fault <- (cause, info, pc)` and nothing else. No register, cell, `pc`, `running` or `out` changes, nothing
is pushed, control goes nowhere (R7, R157, R158, R159). -/
def State.takeFault (s : State) (c : Cause) (info : Int) : State := { s with fault := some ⟨c, info, s.pc⟩ }

/-- The end of phase 5: an instruction whose checks passed leaves its new state; one that raised leaves the state it began
with, with the fault taken, so that no part of its effect is kept (R7, R158, R159; log 3). -/
def State.settle (s : State) : Except Raised State → Host.Outcome State Fault Refusal
  | .ok t => .next t
  | .error r => .next (s.takeFault r.cause r.info)

/-- There is no return from a fault (R161): the one way out of Halted and Faulted is reset, which clears everything, memory
included, and leaves only the parameters the machine was built with (R181). -/
def State.reinit (s : State) : State := State.resetWith s.cfg

/-- The numeric code a status port shows for the fault record (R157). -/
def faultCode : Option FaultRecord → Nat
  | none => 0
  | some f =>
    match f.cause with
    | .invalidOpcode => 1
    | .invalidRegister => 2
    | .memoryFault => 3
    | .unsupportedOperation => 4
    | .divisionByZero => 5
    | .stackUnderflow => 6

/-! ## The stack manager's primitives -/

/-- The address a push writes: one below the stack pointer (R32, R120). -/
def State.pushAddr (s : State) : Nat := (s.sp - 1).toNat

/-- `push(v)`: at `sp` = 0 MemoryFault(-1), before anything moves; else `sp <- sp - 1`, then the byte at the new `sp`
(R120). -/
def State.push (s : State) (v : Byte) : Except Raised State :=
  if s.sp = 0 then .error ⟨.memoryFault, -1⟩
  else (s.setSp (s.sp - 1)).memWrite s.pushAddr v

/-- `pop()`: at `sp` ≥ 0xF4 StackUnderflow(sp), nothing read or moved; else the byte at `sp`, and `sp <- sp + 1` (R121; C1,
C2). -/
def State.pop (s : State) : Except Raised (Byte × State) :=
  if stackTop ≤ s.sp then .error ⟨.stackUnderflow, s.sp.toNat⟩
  else do
    let v ← s.memRead s.sp.toNat
    pure (v, s.setSp (s.sp + 1))

end Sys2Proof.Machine
end

