-- ==== Sys2Proof/Machine/Alu.lean ====
section
/-! DEFINITION. The integer ALU: four operations on unsigned bytes, each computed on numbers and narrowed at the end
(42_alu.md R100 to R106, R111). -/

namespace Sys2Proof.Machine

/-- The ALU's operation selector. `other` stands for every selector outside the four names, so that the ALU's answer to it
can be stated (R105). DESIGN CHOICE (log 9): the spec gives selectors no numbers; `other` carries one. -/
inductive AluSelector where
  | add | sub | mul | div
  | other (code : Nat)
  deriving DecidableEq, Repr

/-- ADD: the sum modulo 256 (R101). -/
def aluAdd (u v : Byte) : Byte := BitVec.ofNat 8 ((u.toNat + v.toNat) % 256)

/-- SUB: the non-negative difference modulo 256 (R102). -/
def aluSub (u v : Byte) : Byte := BitVec.ofInt 8 (((u.toNat : Int) - (v.toNat : Int)) % 256)

/-- MUL: the product modulo 256 (R103). -/
def aluMul (u v : Byte) : Byte := BitVec.ofNat 8 ((u.toNat * v.toNat) % 256)

/-- DIV on a divisor that is not zero: the unsigned quotient, remainder discarded (R104). -/
def aluDiv (u v : Byte) : Byte := BitVec.ofNat 8 (u.toNat / v.toNat)

/-- `apply(operation, register_a, register_b)`: `x[a]` takes the result of the operation on `x[a]` and `x[b]`, both read
before the write; nothing else changes (R100). A zero divisor raises DivisionByZero with the divisor's index (R104, R155);
a selector outside the four raises UnsupportedOperation with the selector (R105, R154). -/
def State.aluApply (s : State) (op : AluSelector) (a b : Fin 8) : Except Raised State :=
  match op with
  | .add => .ok (s.setReg a (aluAdd (s.reg a) (s.reg b)))
  | .sub => .ok (s.setReg a (aluSub (s.reg a) (s.reg b)))
  | .mul => .ok (s.setReg a (aluMul (s.reg a) (s.reg b)))
  | .div =>
    if s.reg b = 0 then .error ⟨.divisionByZero, (b.val : Int)⟩
    else .ok (s.setReg a (aluDiv (s.reg a) (s.reg b)))
  | .other code => .error ⟨.unsupportedOperation, (code : Int)⟩

end Sys2Proof.Machine
end

