-- ==== Sys2Proof/Machine/Arith.lean ====
section
/-! DEFINITION. The ALU instructions: ADD and MUL, and the optional SUB and DIV (42_alu.md R107 to R110). -/

namespace Sys2Proof.Machine

/-- What the ALU instructions share: both operands are register indices, checked in encoding order (R74); the ALU does its
operation; `pc <- pc + 3` only if it did not fault (R106). -/
def State.aluInstr (s : State) (op : AluSelector) (a b : Byte) : Host.Outcome State Fault Refusal :=
  s.settle do
    let i ← regIndex a
    let j ← regIndex b
    let t ← s.aluApply op i j
    pure (t.advance 3)

/-- ADD a, b (R107). -/
def execAdd (a b : Byte) (s : State) : Host.Outcome State Fault Refusal := s.aluInstr .add a b

/-- MUL a, b (R108). -/
def execMul (a b : Byte) (s : State) : Host.Outcome State Fault Refusal := s.aluInstr .mul a b

/-- SUB a, b (R109). That it exists only with HAS_SUBDIV is the decoder's part (R57). -/
def execSub (a b : Byte) (s : State) : Host.Outcome State Fault Refusal := s.aluInstr .sub a b

/-- DIV a, b (R110). That it exists only with HAS_SUBDIV is the decoder's part (R57). -/
def execDiv (a b : Byte) (s : State) : Host.Outcome State Fault Refusal := s.aluInstr .div a b

end Sys2Proof.Machine
end

