-- ==== Sys2Proof/Machine/CallReturn.lean ====
section
/-! DEFINITION. CALL and RET (44_call_return.md R135, R136). -/

namespace Sys2Proof.Machine

/-- CALL's return address `pc + 2` as a number; above 255 it raises MemoryFault with it, since it is no memory address and
fits no stack cell (R135; D12). -/
def State.returnAddress (s : State) : Except Raised Byte :=
  let ret := s.pc.toNat + 2
  if 255 < ret then .error ⟨.memoryFault, ret⟩ else .ok (BitVec.ofNat 8 ret)

/-- CALL r: push the return address, then `pc <- x[r]`, the register read after the push (R135; D13). -/
def execCall (r : Byte) (s : State) : Host.Outcome State Fault Refusal :=
  s.settle do
    let i ← regIndex r
    let ret ← s.returnAddress
    let t ← s.push ret
    pure (t.jump (zext9 (t.reg i)))

/-- RET: pop a byte and set `pc` to it (R136). -/
def execRet (s : State) : Host.Outcome State Fault Refusal :=
  s.settle do
    let (v, t) ← s.pop
    pure (t.jump (zext9 v))

end Sys2Proof.Machine
end

