-- ==== Sys2Proof/Machine/Engine.lean ====
section
/-! DEFINITION. HLT and NOP, the two instructions of 40_dispatch_engine.md. -/

namespace Sys2Proof.Machine

/-- HLT: `running <- 0`, then `pc <- pc + 1` (R78). -/
def execHlt (s : State) : Host.Outcome State Fault Refusal := .next (s.clearRunning.advance 1)

/-- NOP: `pc <- pc + 1` only (R79). -/
def execNop (s : State) : Host.Outcome State Fault Refusal := .next (s.advance 1)

end Sys2Proof.Machine
end

