-- ==== Sys2Proof/Machine/LoadPrint.lean ====
section
/-! DEFINITION. LDI and PRN (41_load_print.md). -/

namespace Sys2Proof.Machine

/-- LDI r, imm: `x[r] <- imm`, then `pc <- pc + 3` (R90). -/
def execLdi (r imm : Byte) (s : State) : Host.Outcome State Fault Refusal :=
  s.settle do
    let i ← regIndex r
    pure ((s.setReg i imm).advance 3)

/-- PRN r: `out <- out ++ [x[r]]`, then `pc <- pc + 2` (R91). -/
def execPrn (r : Byte) (s : State) : Host.Outcome State Fault Refusal :=
  s.settle do
    let i ← regIndex r
    pure ((s.emit (s.reg i)).advance 2)

end Sys2Proof.Machine
end

