-- ==== Sys2Proof/Machine/Stack.lean ====
section
/-! DEFINITION. PUSH and POP (43_stack.md R123, R124). -/

namespace Sys2Proof.Machine

/-- PUSH r: the register is read before the stack pointer moves, so PUSH R7 pushes the old one (R123; D14); then
`pc <- pc + 2`. -/
def execPush (r : Byte) (s : State) : Host.Outcome State Fault Refusal :=
  s.settle do
    let i ← regIndex r
    let t ← s.push (s.reg i)
    pure (t.advance 2)

/-- POP r: the register is written after the stack pointer, so POP R7 ends with the popped byte in R7 (R124; D14); then
`pc <- pc + 2`. -/
def execPop (r : Byte) (s : State) : Host.Outcome State Fault Refusal :=
  s.settle do
    let i ← regIndex r
    let (v, t) ← s.pop
    pure ((t.setReg i v).advance 2)

end Sys2Proof.Machine
end

