-- ==== Sys2Proof/Machine/Fetch.lean ====
section
/-! DEFINITION. Fetching an instruction at the program counter, and placing one there (phases 1 to 3 of R70). -/

namespace Sys2Proof.Machine

/-- The byte `k` places after `pc`, if that address exists: the sum never wraps (R14, R15, R71, R73). -/
def State.fetchByte (s : State) (k : Nat) : Option Byte := (s.memRead (s.pc.toNat + k)).toOption

/-- What a failed decode raises: a byte that does not exist is a MemoryFault at its address, an opcode byte with no row is
an InvalidOpcode with the byte (R71, R72, R73). -/
def State.fetchRaised (s : State) : DecodeError → Raised
  | .missingByte k => ⟨.memoryFault, ((s.pc.toNat + k : Nat) : Int)⟩
  | .invalidOpcode op => ⟨.invalidOpcode, op.toNat⟩

/-- Phases 1 to 3: opcode fetch, decode, operand fetch (R71, R72, R73). The bytes are memory's as they stand now (R41). -/
def State.fetchInstr (s : State) : Except Raised Instr :=
  match decodeFrom s.cfg s.fetchByte with
  | .ok i => .ok i
  | .error e => .error (s.fetchRaised e)

/-- Bytes written at rising addresses from `a`; what would lie above address 255 is dropped. -/
def Memory.writeBytes (m : Memory) (a : Nat) : List Byte → Memory
  | [] => m
  | v :: vs => Memory.writeBytes (if a < memSize then m.write a v else m) (a + 1) vs

/-- A machine in which the opcode byte has a row, if the optional rows give it one and those in force do not (R57; log 6). -/
def enableRowOf (c : Config) (op : Byte) : Config :=
  match c.lookup op with
  | some _ => c
  | none =>
    match c.withSubdiv.lookup op with
    | some _ => c.withSubdiv
    | none => c

/-- The state with an instruction's bytes standing at `pc`, as the host places them, and the optional rows switched on if
the opcode byte belongs to one of them (log 6). -/
def State.placeWord (s : State) (nbits w : Nat) : State :=
  { s with
    mem := s.mem.writeBytes s.pc.toNat (tableBytes nbits w)
    cfg := enableRowOf s.cfg (BitVec.ofNat 8 (w % 2 ^ nbits)) }

end Sys2Proof.Machine
end

