-- ==== Sys2Proof/Machine/Step.lean ====
section
/-! DEFINITION. One step of the machine (40_dispatch_engine.md R70), and the host's way of placing an instruction. -/

namespace Sys2Proof.Machine

/-- One step, taken only in status Running: fetch, decode and operand fetch, then the instruction (R70). A raise of the
fetch is taken like any other (R158). Halted and Faulted have no step (R76, R77). -/
def step (s : State) : Host.Outcome State Fault Refusal :=
  match s.status with
  | .halted => .fault .halted
  | .faulted => .fault .faulted
  | .running =>
    match s.fetchInstr with
    | .ok i => exec i s
    | .error r => .next (s.takeFault r.cause r.info)

/-- The state with a word of spec/opcode_table.json stored where the next step fetches: at `pc` (R71). For the bytes of an
optional row the switch HAS_SUBDIV is set too, since the step cannot run them otherwise (R57; log 6). -/
def State.withFetchWord (s : State) (nbits w : Nat) : State := s.placeWord nbits w

end Sys2Proof.Machine
end

