-- ==== Sys2Proof/Machine/Run.lean ====
section
/-! DEFINITION. Boot, the run and the rendering of its output: what stands around the step (70_reset_and_hazards.md R182,
R190; 40_dispatch_engine.md R77; 41_load_print.md R92). -/

namespace Sys2Proof.Machine

/-- Boot: reset, then the image written from address 0; an image of more than 256 bytes cannot be loaded (R66, R182,
R183). -/
def State.boot (c : Config) (image : List Byte) : Option State :=
  if image.length ≤ memSize then
    some { State.resetWith c with mem := (State.resetWith c).mem.writeBytes 0 image }
  else none

/-- The run, under fuel: R70 repeated while the status is Running, at most `n` times (R77, R191; D24). -/
def State.run : Nat → State → State
  | 0, s => s
  | n + 1, s =>
    match step s with
    | .next t => State.run n t
    | .fault _ => s
    | .refused _ => s

/-- The character of a decimal digit (ASCII). -/
def digitChar (d : Nat) : Byte := BitVec.ofNat 8 (48 + d)

/-- The decimal numeral of a byte: no sign, no leading zeros, `0` for zero, at most three digits (R92). -/
def numeral (v : Byte) : List Byte :=
  let n := v.toNat
  if n < 10 then [digitChar n]
  else if n < 100 then [digitChar (n / 10), digitChar (n % 10)]
  else [digitChar (n / 100), digitChar (n / 10 % 10), digitChar (n % 10)]

/-- One line of output: the numeral, then a line feed, 0x0A (R92; D17). -/
def renderLine (v : Byte) : List Byte := numeral v ++ [0x0A]

/-- The output as the environment shows it: one line for each element of `out`, oldest first (R19, R92). -/
def State.render (s : State) : List Byte := s.out.flatMap renderLine

end Sys2Proof.Machine
end

