-- ==== Sys2Proof/WellFormed.lean ====
section
/-! DEFINITION. Which instructions are well-formed in a configuration: two checks, one over the register operands and one
over the optional rows. -/

namespace Sys2Proof

/-- A register operand byte names a register: 0 to 7 (R55, R74). -/
def regOperandOk (b : Byte) : Bool := decide (b.toNat < numRegs)

/-- The instruction's row is in the table in force: SUB and DIV only with HAS_SUBDIV (R57). -/
def Instr.inForce (c : Config) (i : Instr) : Bool := !i.optional || c.hasSubdiv

/-- Every register operand is 0 to 7 and the row is in force. LDI's immediate has no illegal value (R61). -/
def Instr.wellFormed (c : Config) (i : Instr) : Bool := i.regOperands.all regOperandOk && i.inForce c

end Sys2Proof
end

