-- ==== Sys2Proof/Safety.lean ====
section
/-! DEFINITION. What the statements about the machine are said in: the invariant of its reachable states, and what an
instruction keeps. -/

namespace Sys2Proof.Machine

/-- A fault record the table of R157 allows: the range of `info` for each cause. No instruction raises
UnsupportedOperation (R154). -/
def FaultRecord.legal (f : FaultRecord) : Prop :=
  match f.cause with
  | .invalidOpcode => 0 ≤ f.info ∧ f.info ≤ 255
  | .invalidRegister => 8 ≤ f.info ∧ f.info ≤ 255
  | .memoryFault => f.info = -1 ∨ (256 ≤ f.info ∧ f.info ≤ 258)
  | .unsupportedOperation => False
  | .divisionByZero => 0 ≤ f.info ∧ f.info ≤ 7
  | .stackUnderflow => 0xF4 ≤ f.info ∧ f.info ≤ 0xFF

/-- The invariant of the machine's reachable states. -/
structure State.Inv (s : State) : Prop where
  /-- Memory is in canonical form. -/
  mem : s.mem.wf
  /-- The opcode bytes in force are pairwise distinct (R6). -/
  cfg : s.cfg.wf
  /-- `pc` is 0 to 258 (R15). -/
  pc : s.pc.toNat ≤ 258
  /-- A recorded fault left `running` set (R16, R18), names the `pc` that still stands (R157, R159) and is one R157 allows. -/
  fault : ∀ f, s.fault = some f → s.running = true ∧ f.atPc = s.pc ∧ f.legal

/-- A run is safe as long as the machine has not faulted (R18, R190). -/
def State.Safe (s : State) : Prop := s.status ≠ .faulted

/-- Every byte of memory reads as before. -/
def State.SameMem (s t : State) : Prop := ∀ a, t.mem.read a = s.mem.read a

/-- Every byte of memory reads as before but the one at `d`. -/
def State.SameMemExcept (s t : State) (d : Nat) : Prop := ∀ a, a ≠ d → t.mem.read a = s.mem.read a

/-- Every register reads as before but those listed. -/
def State.SameRegsExcept (s t : State) (ds : List (Fin 8)) : Prop := ∀ j, j ∉ ds → t.reg j = s.reg j

/-- The running flag, the fault record and the configuration are as before. -/
def State.SameControl (s t : State) : Prop := t.running = s.running ∧ t.fault = s.fault ∧ t.cfg = s.cfg

/-- A register operand byte names register `r` (R55). -/
def NamesReg (b : Byte) (r : Fin 8) : Prop := b.toNat = r.val

/-- The bytes of memory that exist at `pc`, `pc + 1` and `pc + 2`: where the longest instruction would stand (R33, R50). -/
def State.window (s : State) : List Byte :=
  (((List.range 3).map fun k => s.pc.toNat + k).filter fun a => decide (a < memSize)).map s.mem.read

/-- The instruction that stands at `pc`, if the bytes there are one (R72). -/
def State.current (s : State) : Option Instr := (decode s.cfg s.window).toOption

/-- The registers an instruction reads: the column "reads" of R12's table. -/
def readsOf : Instr → List Nat
  | .hlt => []
  | .ldi _ _ => []
  | .prn r => [r.toNat]
  | .mul a b => [a.toNat, b.toNat]
  | .add a b => [a.toNat, b.toNat]
  | .push r => [r.toNat, 7]
  | .pop _ => [7]
  | .call r => [7, r.toNat]
  | .ret => [7]
  | .nop => []
  | .sub a b => [a.toNat, b.toNat]
  | .div a b => [a.toNat, b.toNat]

/-- The registers an instruction writes: the column "writes" of R12's table. -/
def writesOf : Instr → List Nat
  | .hlt => []
  | .ldi r _ => [r.toNat]
  | .prn _ => []
  | .mul a _ => [a.toNat]
  | .add a _ => [a.toNat]
  | .push _ => [7]
  | .pop r => [7, r.toNat]
  | .call _ => [7]
  | .ret => [7]
  | .nop => []
  | .sub a _ => [a.toNat]
  | .div a _ => [a.toNat]

/-- The condition under which an instruction's own checks pass, its register operands being legal: the last entries of
R170's table. -/
def ownChecksPass (s : State) : Instr → Prop
  | .hlt => True
  | .ldi _ _ => True
  | .prn _ => True
  | .mul _ _ => True
  | .add _ _ => True
  | .push _ => s.sp ≠ 0
  | .pop _ => s.sp < stackTop
  | .call _ => s.pc.toNat ≤ 253 ∧ s.sp ≠ 0
  | .ret => s.sp < stackTop
  | .nop => True
  | .sub _ _ => True
  | .div _ b => ∀ r, NamesReg b r → s.reg r ≠ 0

/-- Instructions run one after the other, without a fetch between them; none if one of them answers no next state. -/
def execAll : List Instr → State → Option State
  | [], s => some s
  | i :: is, s =>
    match exec i s with
    | .next t => execAll is t
    | .fault _ => none
    | .refused _ => none

end Sys2Proof.Machine
end

