-- ==== Sys2Proof/Certificates/Slice0/Obligations.lean ====
section
/-! DEFINITION. The statements for the provers. Each docstring names the rule of spec/ it formalises; a value the spec itself
decided (a D<n> of 92_eei_decisions.md) or the model chose (a log entry) is said so. In all of them a fault taken is a next
state with the fault record set; that form is log 3. -/

open Sys2Proof Sys2Proof.Machine

/-- In every configuration that meets R6's constraint, for every instruction whose row is in force, with every operand
byte at every value, and for any bytes after it: decoding its encoding followed by those bytes answers that
instruction. (30_encoding.md sections 1 to 3 (R50 to R58); 30_encoding.md section 5 (R62, column bytes)) -/
def Obligations.DecodeOfEncodeIsTheInstruction : Prop :=
  ∀ (c : Config) (i : Instr) (rest : List Byte), c.wf → i.inForce c = true →
    decode c (encode c i ++ rest) = .ok i

/-- In every configuration, if bytes decode to an instruction, then its row is in force, there are at least as many
bytes as it is long, and its encoding is exactly the first bytes, as many as it is long (1 to 3). (30_encoding.md
sections 1 to 3 (R50 to R59)) -/
def Obligations.DecodedBytesAreTheEncoding : Prop :=
  ∀ (c : Config) (bytes : List Byte) (i : Instr), decode c bytes = .ok i →
    i.inForce c = true ∧ i.length ≤ bytes.length ∧ encode c i = bytes.take i.length ∧ 1 ≤ i.length ∧ i.length ≤ 3

/-- In every configuration, a byte that is the opcode of no row in force, read as an opcode, is rejected as that
invalid opcode whatever follows, and the decoder calls an opcode byte invalid only then; the number of such bytes with
the default parameters (log 2) is 246, and 244 when HAS_SUBDIV adds the two optional rows. As LDI's immediate operand
any byte is allowed. (30_encoding.md section 4 (R60, R61); 92_eei_decisions.md D1, D2) -/
def Obligations.OpcodeBytesOfNoRowAreRejected : Prop :=
  (∀ (c : Config) (op op' : Byte) (rest : List Byte),
      decode c (op :: rest) = .error (.invalidOpcode op') ↔ (op' = op ∧ ∀ m ∈ c.mnemonics, c.opcodeOf m ≠ op)) ∧
    ((List.range 256).filter fun n => (Config.default.lookup (BitVec.ofNat 8 n)).isNone).length = 246 ∧
    ((List.range 256).filter fun n => (Config.default.withSubdiv.lookup (BitVec.ofNat 8 n)).isNone).length = 244 ∧
    ∀ (c : Config) (r v : Byte), c.wf → decode c [0x82, r, v] = .ok (.ldi r v)

/-- In every configuration: with HAS_SUBDIV and R6's constraint met, OPC_SUB, a, b decodes to SUB a, b and OPC_DIV, a,
b to DIV a, b; without HAS_SUBDIV, if OPC_SUB (OPC_DIV) is the byte of no base row, it is rejected as an invalid
opcode, whatever follows. (30_encoding.md section 3 (R57); 92_eei_decisions.md D2) -/
def Obligations.OptionalRowsAreDecodedOnlyWithSubdiv : Prop :=
  ∀ (c : Config) (a b : Byte) (rest : List Byte),
    (c.hasSubdiv = true → c.wf →
      decode c (c.opcSub :: a :: b :: rest) = .ok (.sub a b) ∧ decode c (c.opcDiv :: a :: b :: rest) = .ok (.div a b)) ∧
    (c.hasSubdiv = false → (∀ m ∈ c.mnemonics, c.opcodeOf m ≠ c.opcSub) →
      decode c (c.opcSub :: rest) = .error (.invalidOpcode c.opcSub)) ∧
    (c.hasSubdiv = false → (∀ m ∈ c.mnemonics, c.opcodeOf m ≠ c.opcDiv) →
      decode c (c.opcDiv :: rest) = .error (.invalidOpcode c.opcDiv))

/-- With the default parameters, the bytes of the source's example (LDI R0,8; PRN R0; HLT) and one written-out word of
each other family decode to the instruction they stand for; with HAS_SUBDIV so do one SUB and one DIV word. The bytes
other than 0x82, 0x47, 0x01 are the model's default parameters (log 2). (95_test_vectors.md section 1 (S1) and section
2; 30_encoding.md section 3 (R56, R57)) -/
def Obligations.WrittenOutWordsDecode : Prop :=
  decode Config.default [0b10000010, 0b00000000, 0b00001000] = .ok (.ldi 0 8) ∧
    decode Config.default [0b01000111, 0b00000000] = .ok (.prn 0) ∧
    decode Config.default [0b00000001] = .ok .hlt ∧
    decode Config.default [0b10100000, 0b00000000, 0b00000001] = .ok (.add 0 1) ∧
    decode Config.default [0b10100010, 0b00000011, 0b00000010] = .ok (.mul 3 2) ∧
    decode Config.default [0b01000101, 0b00000111] = .ok (.push 7) ∧
    decode Config.default [0b01000110, 0b00000001] = .ok (.pop 1) ∧
    decode Config.default [0b01010000, 0b00000001] = .ok (.call 1) ∧
    decode Config.default [0b00010001] = .ok .ret ∧
    decode Config.default [0b00000000] = .ok .nop ∧
    decode Config.default.withSubdiv [0b10100001, 0b00000010, 0b00000011] = .ok (.sub 2 3) ∧
    decode Config.default.withSubdiv [0b10100011, 0b00000000, 0b00000001] = .ok (.div 0 1)

/-- Two states with the same opcode table, the same pc and the same bytes at pc, pc + 1 and pc + 2 fetch the same
instruction or raise the same fault in the fetch, whatever their registers, flag, fault record and output; and
whenever bytes decode, the first byte alone, by its row, fixes the instruction and its length (no prefix, no escape,
no compressed form, no mode). (R59) -/
def Obligations.DecodingReadsOnlyBytesAndTable : Prop :=
  (∀ s s' : State, s'.cfg.table = s.cfg.table → s'.pc = s.pc →
    (∀ k, k ≤ 2 → s'.mem.read (s.pc.toNat + k) = s.mem.read (s.pc.toNat + k)) →
    s'.fetchInstr = s.fetchInstr) ∧
    ∀ (c : Config) (op : Byte) (rest : List Byte) (i : Instr), decode c (op :: rest) = .ok i →
      c.lookup op = some i.mnemonic ∧ i.length = 1 + i.mnemonic.format.operandCount

/-- For every configuration the reset state has R0 to R6 at 0, R7 at 0xF4, every memory cell 0, pc 0, running 1, no
fault record, empty output and status Running; the machine's reset is that of the default parameters; and a reset from
any state, Halted and Faulted included, is the reset state of its configuration. (70_reset_and_hazards.md section 1
(R180, R181); 10_state.md section 7 (R23); 92_eei_decisions.md D6, D7, D17, D25) -/
def Obligations.ResetLeavesTheTableValues : Prop :=
  (∀ c : Config,
      (∀ j : Fin 8, j ≠ 7 → (State.resetWith c).reg j = 0) ∧ (State.resetWith c).reg 7 = 0xF4 ∧
      (∀ a, (State.resetWith c).mem.read a = 0) ∧ (State.resetWith c).pc = 0 ∧ (State.resetWith c).running = true ∧
      (State.resetWith c).fault = none ∧ (State.resetWith c).out = [] ∧ (State.resetWith c).status = .running ∧
      (State.resetWith c).cfg = c) ∧
    State.reset = State.resetWith Config.default ∧
    ∀ s : State, s.reinit = State.resetWith s.cfg

/-- For every configuration and image of at most 256 bytes, boot answers a state whose cell i holds byte i of the
image for i below its length and 0 from there to 255, whose memory is canonical, and whose every other field is the
reset state's; a longer image cannot be booted. (70_reset_and_hazards.md section 2 (R182, R183); 30_encoding.md
section 6 (R66)) -/
def Obligations.BootPlacesTheImage : Prop :=
  ∀ (c : Config) (image : List Byte),
    (image.length ≤ 256 → ∃ s, State.boot c image = some s ∧
      (∀ (a : Nat) (h : a < image.length), s.mem.read a = image[a]) ∧
      (∀ a, image.length ≤ a → a ≤ 255 → s.mem.read a = 0) ∧ s.mem.wf ∧
      (∀ j, s.reg j = (State.resetWith c).reg j) ∧ s.pc = 0 ∧ s.running = true ∧ s.fault = none ∧ s.out = [] ∧
      s.cfg = c) ∧
    (256 < image.length → State.boot c image = none)

/-- For every configuration that meets R6's constraint, and so for the default one, the reset state meets the
invariant: canonical memory, distinct opcode bytes, pc at most 258, and any fault record standing with running set,
its at equal to pc, its info in the range R157 gives its cause. (10_state.md sections 3 to 7 (R15 to R18, R23);
60_exceptions.md section 1 (R157)) -/
def Obligations.ResetMeetsTheInvariant : Prop :=
  (∀ c : Config, c.wf → (State.resetWith c).Inv) ∧ State.reset.Inv

/-- From every state that meets the invariant, whatever state a step answers meets it: memory stays in canonical form
below address 256, the opcode bytes in force stay distinct, pc stays 0 to 258, and a fault record has running set, at
equal to the pc that stands, and for its cause the info range of R157, UnsupportedOperation never being recorded.
(10_state.md sections 3 and 4 (R15 to R18); 20_memory.md section 1 (R31); 60_exceptions.md sections 1 and 2 (R154,
R157 to R159)) -/
def Obligations.StepKeepsTheInvariant : Prop :=
  ∀ s t : State, s.Inv → step s = .next t → t.Inv

/-- In status Running, when the bytes that exist at pc, pc + 1 and pc + 2 decode to an instruction i, the step is exec
of i at that state; nothing is added around it (the advance of pc is the instruction's own). (40_dispatch_engine.md
section 1 (R70 to R75)) -/
def Obligations.StepRunsTheDecodedInstruction : Prop :=
  ∀ (s : State) (i : Instr), s.status = .running → decode s.cfg s.window = .ok i → step s = exec i s

/-- R80 says that every Running state has exactly one outcome, 'either a successor state or a fault'; that a fault
taken is itself a next state, with the fault record set, is the model's choice of form (log 3), and so is that the
step answers, where R77 has no successor, the host's fault outcome under the names halted and faulted (log 3). In that
form: a step in status Running answers a next state (an effect or a fault taken); in status Halted it answers no next
state but the named stop halted, in status Faulted the named stop faulted. Every instruction's meaning answers a next
state in every state, those that are not Running among them, since exec does not look at the status (log 11, the
model's own: the spec has no execute phase outside Running). (40_dispatch_engine.md section 1 (R70, R77, R80);
10_state.md section 4 (R18); 60_exceptions.md section 2 (R158); 92_eei_decisions.md D7) -/
def Obligations.RunningAlwaysStepsAndTerminalNever : Prop :=
  (∀ (i : Instr) (s : State), ∃ t, exec i s = .next t) ∧
    ∀ s : State, (s.status = .running → ∃ t, step s = .next t) ∧
      (s.status = .halted → step s = .fault .halted) ∧ (s.status = .faulted → step s = .fault .faulted)

/-- With no fault record and running set the status is Running; with no fault record and running clear, Halted; with a
fault record and running set, Faulted; only the first can step. The pair a fault record and running clear, which the
table calls unreachable, cannot step either. (10_state.md section 4 (R18)) -/
def Obligations.StatusFollowsItsTable : Prop :=
  ∀ s : State,
    (s.fault = none → s.running = true → s.status = .running ∧ ∃ t, step s = .next t) ∧
    (s.fault = none → s.running = false → s.status = .halted ∧ ∀ t, step s ≠ .next t) ∧
    (s.fault ≠ none → s.running = true → s.status = .faulted ∧ ∀ t, step s ≠ .next t) ∧
    (s.fault ≠ none → s.running = false → ∀ t, step s ≠ .next t)

/-- After a step that did not fault, if running is 0 the status is Halted and no further step is taken, otherwise the
status is Running and a next step is taken, which fetches at the new pc; after a step that faulted the status is
Faulted and no further step is taken. (R76) -/
def Obligations.LoopGateAfterAStep : Prop :=
  ∀ s t : State, step s = .next t →
    (t.fault = none → t.running = false → t.status = .halted ∧ ∀ u, step t ≠ .next u) ∧
    (t.fault = none → t.running = true → t.status = .running ∧ (∃ u, step t = .next u) ∧
      ∀ i, decode t.cfg t.window = .ok i → step t = exec i t) ∧
    (t.fault ≠ none → t.status = .faulted ∧ ∀ u, step t ≠ .next u)

/-- In status Running, with pc above 255 the step takes MemoryFault with info pc and changes nothing else; with pc at
most 255 the opcode byte is the byte of memory at pc as it stands. (40_dispatch_engine.md section 1 (R71);
60_exceptions.md section 1 (R153 a); 92_eei_decisions.md D5, D7) -/
def Obligations.FetchAbove255TakesMemoryFault : Prop :=
  ∀ s : State,
    (s.status = .running → 255 < s.pc.toNat → step s = .next (s.takeFault .memoryFault s.pc.toNat)) ∧
    (s.pc.toNat ≤ 255 → s.fetchByte 0 = some (s.mem.read s.pc.toNat))

/-- In status Running with pc at most 255, when the byte at pc is the opcode of no row in force, the step takes
InvalidOpcode with that byte as info and pc as at, running stays true, pc and everything else keep their values; this
holds at address 255 too, whatever stands or does not stand after the byte. (40_dispatch_engine.md section 1 (R72);
60_exceptions.md sections 1 and 2 (R151, R158, R160)) -/
def Obligations.UnlistedOpcodeTakesInvalidOpcode : Prop :=
  ∀ s : State, s.status = .running → s.pc.toNat ≤ 255 →
    (∀ m ∈ s.cfg.mnemonics, s.cfg.opcodeOf m ≠ s.mem.read s.pc.toNat) →
    ∃ t, step s = .next t ∧ t.fault = some ⟨.invalidOpcode, (s.mem.read s.pc.toNat).toNat, s.pc⟩ ∧
      t.running = true ∧ t.pc = s.pc ∧ (∀ j, t.reg j = s.reg j) ∧ t.mem = s.mem ∧ t.out = s.out ∧ t.cfg = s.cfg

/-- In status Running with pc at most 255 and the byte at pc the opcode of a row in force (R6's constraint met), when
an operand byte of that row would lie above 255 the step takes MemoryFault with info 256, the first address out of
range. (40_dispatch_engine.md section 1 (R73); 60_exceptions.md section 1 (R153 b); 92_eei_decisions.md D10) -/
def Obligations.OperandBeyondMemoryTakesMemoryFault : Prop :=
  ∀ (s : State) (m : Mnemonic), s.status = .running → s.cfg.wf → m ∈ s.cfg.mnemonics →
    s.pc.toNat ≤ 255 → s.mem.read s.pc.toNat = s.cfg.opcodeOf m → 255 < s.pc.toNat + m.format.operandCount →
    step s = .next (s.takeFault .memoryFault 256)

/-- For every instruction and every state, if some register operand byte is 8 or more, the meaning takes
InvalidRegister with the first such byte in encoding order as info, whatever the stack pointer, the divisor or pc.
(40_dispatch_engine.md section 1 (R74); 60_exceptions.md sections 1 and 2 (R152, R160)) -/
def Obligations.BadRegisterOperandTakesInvalidRegister : Prop :=
  ∀ (i : Instr) (s : State) (b : Byte), i.regOperands.find? (fun b => decide (8 ≤ b.toNat)) = some b →
    exec i s = .next (s.takeFault .invalidRegister b.toNat)

/-- Taking a fault with cause c and info n sets the fault record to (c, n, pc); registers, memory, pc, running, output
and configuration keep their values; the status is Faulted and no step is taken from there. (60_exceptions.md section
2 (R158, R159); 92_eei_decisions.md D7, D8) -/
def Obligations.TakingAFaultChangesOnlyTheRecord : Prop :=
  ∀ (s : State) (c : Cause) (n : Int),
    (s.takeFault c n).fault = some ⟨c, n, s.pc⟩ ∧ (∀ j, (s.takeFault c n).reg j = s.reg j) ∧
    (s.takeFault c n).mem = s.mem ∧ (s.takeFault c n).pc = s.pc ∧ (s.takeFault c n).running = s.running ∧
    (s.takeFault c n).out = s.out ∧ (s.takeFault c n).cfg = s.cfg ∧ (s.takeFault c n).status = .faulted ∧
    step (s.takeFault c n) = .fault .faulted

/-- For every state and every step that answers a state with a fault record: that state is the one the step began
with, with some fault taken; no register, memory cell, pc, running or output has changed, and the step began with no
record. (60_exceptions.md section 2 (R158, R159); 92_eei_decisions.md D8) -/
def Obligations.FaultingStepsArePrecise : Prop :=
  ∀ s t : State, step s = .next t → t.fault ≠ none →
    s.fault = none ∧ ∃ (c : Cause) (n : Int), t = s.takeFault c n

/-- From every state with no fault record, the state an instruction's meaning answers is safe (not Faulted) exactly
when all its register operands are 0 to 7 and its own checks of R170's table pass: PUSH sp not 0; POP and RET sp below
0xF4; CALL pc at most 253 and sp not 0; DIV divisor not 0; the others none. (60_exceptions.md section 7 (R170);
60_exceptions.md section 1 (R150 to R156)) -/
def Obligations.InstructionsFaultExactlyAsTheTableSays : Prop :=
  ∀ (i : Instr) (s t : State), s.fault = none → exec i s = .next t →
    (t.Safe ↔ (i.regOperands.all regOperandOk = true ∧ ownChecksPass s i))

/-- running is true at reset; a step is taken only while it is true; after a step it is false exactly when the
instruction at pc was HLT (so it only ever goes from 1 to 0 and by HLT only); after a step that took a fault it is
true. (R16) -/
def Obligations.OnlyHltClearsRunning : Prop :=
  State.reset.running = true ∧
    ∀ s t : State, step s = .next t →
      s.running = true ∧ (t.running = false ↔ s.current = some .hlt) ∧ (t.fault ≠ none → t.running = true)

/-- For every step: either the output is unchanged, or the instruction at pc is a PRN whose operand names a register
and the output has gained that register's value as its one new last element. (10_state.md section 4 (R19);
41_load_print.md (R91)) -/
def Obligations.OnlyPrnAppendsToTheOutput : Prop :=
  ∀ s t : State, step s = .next t → t.out = s.out ∨
    ∃ (b : Byte) (r : Fin 8), s.current = some (.prn b) ∧ NamesReg b r ∧ t.out = s.out ++ [s.reg r]

/-- For every step from a state with canonical memory: either memory is unchanged, or the instruction at pc is a PUSH
or a CALL, the stack pointer was not 0, and every byte other than the one at the push address of the state the step
began with reads as before. (20_memory.md sections 1 and 2 (R31, R32, R35); 43_stack.md section 1 (R120)) -/
def Obligations.OnlyPushAndCallStore : Prop :=
  ∀ s t : State, s.mem.wf → step s = .next t → t.mem = s.mem ∨
    ((∃ b, s.current = some (.push b) ∨ s.current = some (.call b)) ∧ s.sp ≠ 0 ∧ s.SameMemExcept t s.pushAddr)

/-- For every instruction, state and next state its meaning answers: every register not in the instruction's writes
column (LDI r; ADD, MUL, SUB, DIV a; PUSH, CALL, RET R7; POP R7 and r; HLT, NOP, PRN none) reads as before.
(10_state.md section 1 (R12)) -/
def Obligations.RegisterWritesFollowTheTable : Prop :=
  ∀ (i : Instr) (s t : State), exec i s = .next t → ∀ j : Fin 8, j.val ∉ writesOf i → t.reg j = s.reg j

/-- Two states with no fault record that agree on everything but registers outside the instruction's reads column: the
meaning answers states that agree on pc, memory, running, fault record, output and configuration, and, if no fault was
taken, on every register the instruction writes. (10_state.md section 1 (R12)) -/
def Obligations.RegisterReadsFollowTheTable : Prop :=
  ∀ (i : Instr) (s s' t t' : State), s.fault = none →
    s'.pc = s.pc → s'.mem = s.mem → s'.running = s.running → s'.fault = s.fault → s'.out = s.out → s'.cfg = s.cfg →
    (∀ j : Fin 8, j.val ∈ readsOf i → s'.reg j = s.reg j) →
    exec i s = .next t → exec i s' = .next t' →
    t'.pc = t.pc ∧ t'.mem = t.mem ∧ t'.running = t.running ∧ t'.fault = t.fault ∧ t'.out = t.out ∧ t'.cfg = t.cfg ∧
      (t.fault = none → ∀ j : Fin 8, j.val ∈ writesOf i → t'.reg j = t.reg j)

/-- For every state, output history o and step: if the step answers t, then the same state with history o steps to t
with the history o followed by what the step appended. (10_state.md section 4 (R19); 40_dispatch_engine.md section 1
(R80)) -/
def Obligations.StepIgnoresTheOutputHistory : Prop :=
  ∀ (s t : State) (o : List Byte), step s = .next t →
    step { s with out := o } = .next { t with out := o ++ t.out.drop s.out.length }

/-- Whatever state a step answers has the configuration the step began with, and so has the state any number of steps
of a run leads to. (The configuration is a field of the model's own, log 1.) (10_state.md section 6 (R21); 00_scope.md
section 4 (R6)) -/
def Obligations.TheOpcodeTableNeverChanges : Prop :=
  (∀ s t : State, step s = .next t → t.cfg = s.cfg) ∧ ∀ (n : Nat) (s : State), (State.run n s).cfg = s.cfg

/-- For every step that takes no fault, with i the instruction at pc: if i is neither CALL nor RET, the new pc as a
number is the old one plus the length of i (1, 2 or 3), at most 258 and never wrapped; if i is CALL or RET, the new pc
is at most 255. (40_dispatch_engine.md section 1 (R75); 10_state.md section 3 (R14, R15); 92_eei_decisions.md D5) -/
def Obligations.PcAdvancesByTheInstructionLength : Prop :=
  ∀ (s t : State) (i : Instr), step s = .next t → t.fault = none → s.current = some i →
    ((∀ b, i ≠ .call b) → i ≠ .ret → t.pc.toNat = s.pc.toNat + i.length ∧ t.pc.toNat ≤ 258) ∧
    (((∃ b, i = .call b) ∨ i = .ret) → t.pc.toNat ≤ 255)

/-- For every run and any two step counts m at most n: if after m steps the status is not Running, then after n steps
the state is the same, fault record, registers, memory and output included; and if the status is not Running the run
has ended Halted (running 0, no record) or Faulted (a record). (40_dispatch_engine.md section 1 (R76, R77);
10_state.md section 4 (R17, R18); 60_exceptions.md section 3 (R161)) -/
def Obligations.TerminalStatesAreFinal : Prop :=
  ∀ (s : State) (m n : Nat), m ≤ n → (State.run m s).status ≠ .running →
    State.run n s = State.run m s ∧
      (((State.run m s).running = false ∧ (State.run m s).fault = none) ∨ (State.run m s).fault ≠ none)

/-- From every Running state whose opcode table has NOP at 0x00 and whose cells from pc to 255 all hold 0: after 256 -
pc steps the state is the same but for pc, which is 256, and the next step takes MemoryFault(256). That NOP is at 0x00
is a hypothesis (it is so in the default parameters, log 2). (70_reset_and_hazards.md section 3 (R187);
40_dispatch_engine.md section 2 (R79)) -/
def Obligations.RunningOffTheEndOfMemoryFaults : Prop :=
  ∀ s : State, s.status = .running → s.cfg.lookup 0 = some .nop → s.pc.toNat ≤ 256 →
    (∀ a, s.pc.toNat ≤ a → a ≤ 255 → s.mem.read a = 0) →
    State.run (256 - s.pc.toNat) s = s.jump 256 ∧
      State.run (257 - s.pc.toNat) s = (s.jump 256).takeFault .memoryFault 256

/-- For every state and address: up to 255 MemRead answers the byte of memory there; above 255 it raises MemoryFault
with the address. It answers a byte and no state, so nothing changes; where an instruction reads (POP, RET), memory
after it reads as before. (R30) -/
def Obligations.MemReadInAndOutOfRange : Prop :=
  ∀ s : State,
    (∀ a, a ≤ 255 → s.memRead a = .ok (s.mem.read a)) ∧ (∀ a, 255 < a → s.memRead a = .error ⟨.memoryFault, a⟩) ∧
    (∀ (v : Byte) (t : State), s.pop = .ok (v, t) → s.SameMem t)

/-- For every state with canonical memory, address and byte: up to 255 MemWrite answers the state whose cell there
holds the byte, whose other cells and other fields are as before and whose memory is canonical; above 255 it raises
MemoryFault with the address. The address a push writes is always at most 255. (20_memory.md section 1 (R31)) -/
def Obligations.MemWriteInAndOutOfRange : Prop :=
  ∀ (s : State) (v : Byte), s.mem.wf →
    (∀ a, a ≤ 255 → ∃ t, s.memWrite a v = .ok t ∧ t.mem.read a = v ∧ s.SameMemExcept t a ∧ t.mem.wf ∧
      s.SameRegsExcept t [] ∧ t.pc = s.pc ∧ t.out = s.out ∧ s.SameControl t) ∧
    (∀ a, 255 < a → s.memWrite a v = .error ⟨.memoryFault, a⟩) ∧ s.pushAddr ≤ 255

/-- For every state with canonical memory, byte v and push that succeeds: a fetch at the new stack pointer, by
whatever control transfer pc comes there, reads v as the opcode byte. (20_memory.md section 9 (R41);
92_eei_decisions.md D18) -/
def Obligations.AStoreIsSeenByTheNextFetch : Prop :=
  ∀ (s t : State) (v : Byte), s.mem.wf → s.push v = .ok t → (t.jump (zext9 t.sp)).fetchByte 0 = some v

/-- For every byte: its line is one to three digit characters and a line feed (0x0A, the spec's choice D17); the
digits read in base ten give the byte's number; the first is 0 only for the numeral of one digit. The rendering of an
output that gained an element is the old rendering followed by that element's line. (41_load_print.md (R92);
92_eei_decisions.md D17) -/
def Obligations.OutputLinesAreDecimalNumerals : Prop :=
  (∀ v : Byte, ∃ ds : List Byte, renderLine v = ds ++ [0x0A] ∧ 1 ≤ ds.length ∧ ds.length ≤ 3 ∧
      (∀ d ∈ ds, 48 ≤ d.toNat ∧ d.toNat ≤ 57) ∧
      ds.foldl (fun n d => 10 * n + (d.toNat - 48)) 0 = v.toNat ∧ (1 < ds.length → ds.head? ≠ some 48)) ∧
    ∀ (s : State) (v : Byte), (s.emit v).render = s.render ++ renderLine v

/-- In every state HLT completes: running is 0, pc is one more (from 255 it is 256), registers, memory, output, fault
record and configuration are as before, and with no fault record the status is Halted. (40_dispatch_engine.md section
2 (R78)) -/
def Obligations.HltHaltsAndAdvances : Prop :=
  ∀ s : State, ∃ t, exec .hlt s = .next t ∧ t.running = false ∧ t.pc = s.pc + 1 ∧
    (s.pc.toNat ≤ 255 → t.pc.toNat = s.pc.toNat + 1) ∧ s.SameRegsExcept t [] ∧ s.SameMem t ∧ t.out = s.out ∧
    t.fault = s.fault ∧ t.cfg = s.cfg ∧ (s.fault = none → t.status = .halted)

/-- In every state NOP completes: pc is one more (from 255 it is 256), and registers, memory, output, running, fault
record and configuration are as before. (40_dispatch_engine.md section 2 (R79)) -/
def Obligations.NopOnlyAdvances : Prop :=
  ∀ s : State, ∃ t, exec .nop s = .next t ∧ t.pc = s.pc + 1 ∧ (s.pc.toNat ≤ 255 → t.pc.toNat = s.pc.toNat + 1) ∧
    s.SameRegsExcept t [] ∧ s.SameMem t ∧ t.out = s.out ∧ s.SameControl t

/-- For every operand byte that names a register r (7 included) and every immediate, in every state LDI completes:
x[r] is the immediate, every other register, memory, output, running, fault record and configuration are as before, pc
is three more; with r = 7 the stack pointer is the immediate. (41_load_print.md (R90); 10_state.md section 2 (R13)) -/
def Obligations.LdiLoadsTheImmediate : Prop :=
  ∀ (s : State) (b imm : Byte) (r : Fin 8), NamesReg b r → ∃ t, exec (.ldi b imm) s = .next t ∧ t.reg r = imm ∧
    (r = 7 → t.sp = imm) ∧ s.SameRegsExcept t [r] ∧ t.pc = s.pc + 3 ∧ s.SameMem t ∧ t.out = s.out ∧ s.SameControl t

/-- For every operand byte that names a register r (7 included), in every state PRN completes: the output gains
exactly x[r] at its end, pc is two more, no register and no memory cell changes, running, fault record and
configuration are as before. (41_load_print.md (R91)) -/
def Obligations.PrnEmitsTheRegister : Prop :=
  ∀ (s : State) (b : Byte) (r : Fin 8), NamesReg b r → ∃ t, exec (.prn b) s = .next t ∧ t.out = s.out ++ [s.reg r] ∧
    t.pc = s.pc + 2 ∧ s.SameRegsExcept t [] ∧ s.SameMem t ∧ s.SameControl t

/-- For operand bytes that name registers a and b (equal or 7 included), in every state ADD completes: x[a] is (x[a] +
x[b]) mod 256 of the old values, every other register, memory, output, running, fault record and configuration are as
before, pc is three more. (42_alu.md section 3 (R107)) -/
def Obligations.AddWritesTheSumModulo256 : Prop :=
  ∀ (s : State) (p q : Byte) (a b : Fin 8), NamesReg p a → NamesReg q b → ∃ t, exec (.add p q) s = .next t ∧
    (t.reg a).toNat = ((s.reg a).toNat + (s.reg b).toNat) % 256 ∧ s.SameRegsExcept t [a] ∧ t.pc = s.pc + 3 ∧
    s.SameMem t ∧ t.out = s.out ∧ s.SameControl t

/-- For operand bytes that name registers a and b (equal or 7 included), in every state MUL completes: x[a] is (x[a] *
x[b]) mod 256 of the old values, every other register, memory, output, running, fault record and configuration are as
before, pc is three more. (42_alu.md section 3 (R108)) -/
def Obligations.MulWritesTheProductModulo256 : Prop :=
  ∀ (s : State) (p q : Byte) (a b : Fin 8), NamesReg p a → NamesReg q b → ∃ t, exec (.mul p q) s = .next t ∧
    (t.reg a).toNat = ((s.reg a).toNat * (s.reg b).toNat) % 256 ∧ s.SameRegsExcept t [a] ∧ t.pc = s.pc + 3 ∧
    s.SameMem t ∧ t.out = s.out ∧ s.SameControl t

/-- For operand bytes that name registers a and b (equal or 7 included), in every state SUB completes: x[a] is (x[a] -
x[b]) mod 256, the non-negative remainder, of the old values, every other register, memory, output, running, fault
record and configuration are as before, pc is three more. That the decoder gives SUB only with HAS_SUBDIV is another
statement. (42_alu.md section 4 (R109); 92_eei_decisions.md D2) -/
def Obligations.SubWritesTheDifferenceModulo256 : Prop :=
  ∀ (s : State) (p q : Byte) (a b : Fin 8), NamesReg p a → NamesReg q b → ∃ t, exec (.sub p q) s = .next t ∧
    ((t.reg a).toNat : Int) = (((s.reg a).toNat : Int) - ((s.reg b).toNat : Int)) % 256 ∧ s.SameRegsExcept t [a] ∧ t.pc = s.pc + 3 ∧
    s.SameMem t ∧ t.out = s.out ∧ s.SameControl t

/-- For operand bytes that name registers a and b (equal or 7 included), in every state with x[b] not 0 DIV completes:
x[a] is x[a] div x[b] of the old values, unsigned, every other register, memory, output, running, fault record and
configuration are as before, pc is three more. That the decoder gives DIV only with HAS_SUBDIV is another statement.
(42_alu.md section 4 (R110); 92_eei_decisions.md D2, D15) -/
def Obligations.DivWritesTheUnsignedQuotient : Prop :=
  ∀ (s : State) (p q : Byte) (a b : Fin 8), NamesReg p a → NamesReg q b → s.reg b ≠ 0 → ∃ t, exec (.div p q) s = .next t ∧
    (t.reg a).toNat = (s.reg a).toNat / (s.reg b).toNat ∧ s.SameRegsExcept t [a] ∧ t.pc = s.pc + 3 ∧
    s.SameMem t ∧ t.out = s.out ∧ s.SameControl t

/-- For operand bytes that name registers a and b, in every state with x[b] = 0 (a = b included) DIV takes
DivisionByZero with the divisor's index b as info; nothing else changes. (42_alu.md sections 1 and 4 (R104, R110);
60_exceptions.md section 1 (R155)) -/
def Obligations.DivByZeroTakesDivisionByZero : Prop :=
  ∀ (s : State) (p q : Byte) (a b : Fin 8), NamesReg p a → NamesReg q b → s.reg b = 0 →
    exec (.div p q) s = .next (s.takeFault .divisionByZero b.val)

/-- For every state and registers a, b (a = b included), the ALU operations ADD, SUB and MUL succeed with x[a] the
sum, the non-negative difference (x[a] - x[b] + 256 when x[a] < x[b]) and the product of the old values, each modulo
256, and every other register, memory, pc, output, running, fault record (so no carry, borrow or high byte is kept)
and configuration as before; without HAS_SUBDIV no bytes decode to SUB. (R101; R102; R103) -/
def Obligations.AluAddSubMulAreModulo256 : Prop :=
  (∀ (s : State) (a b : Fin 8),
      (∃ t, s.aluApply .add a b = .ok t ∧ (t.reg a).toNat = ((s.reg a).toNat + (s.reg b).toNat) % 256 ∧
        s.SameRegsExcept t [a] ∧ t.pc = s.pc ∧ s.SameMem t ∧ t.out = s.out ∧ s.SameControl t) ∧
      (∃ t, s.aluApply .sub a b = .ok t ∧
        ((t.reg a).toNat : Int) = (((s.reg a).toNat : Int) - ((s.reg b).toNat : Int)) % 256 ∧
        ((s.reg a).toNat < (s.reg b).toNat → (t.reg a).toNat = (s.reg a).toNat + 256 - (s.reg b).toNat) ∧
        s.SameRegsExcept t [a] ∧ t.pc = s.pc ∧ s.SameMem t ∧ t.out = s.out ∧ s.SameControl t) ∧
      (∃ t, s.aluApply .mul a b = .ok t ∧ (t.reg a).toNat = ((s.reg a).toNat * (s.reg b).toNat) % 256 ∧
        s.SameRegsExcept t [a] ∧ t.pc = s.pc ∧ s.SameMem t ∧ t.out = s.out ∧ s.SameControl t)) ∧
    ∀ (c : Config) (bytes : List Byte) (a b : Byte), c.hasSubdiv = false → decode c bytes ≠ .ok (.sub a b)

/-- For every state and registers a, b: the ALU's DIV with x[b] = 0 raises DivisionByZero(b), otherwise succeeds with
x[a] the unsigned quotient and all else as before; every selector outside the four raises UnsupportedOperation with
the selector, and taking it changes no register. (How a selector outside the four is written is the model's own, log
9.) (42_alu.md section 1 (R104, R105); 60_exceptions.md section 1 (R154, R155); 92_eei_decisions.md D15, D16) -/
def Obligations.AluDivAndUnsupportedSelectors : Prop :=
  ∀ (s : State) (a b : Fin 8),
    (s.reg b = 0 → s.aluApply .div a b = .error ⟨.divisionByZero, (b.val : Int)⟩) ∧
    (s.reg b ≠ 0 → ∃ t, s.aluApply .div a b = .ok t ∧ (t.reg a).toNat = (s.reg a).toNat / (s.reg b).toNat ∧
      s.SameRegsExcept t [a] ∧ t.pc = s.pc ∧ s.SameMem t ∧ t.out = s.out ∧ s.SameControl t) ∧
    ∀ code : Nat, s.aluApply (.other code) a b = .error ⟨.unsupportedOperation, (code : Int)⟩ ∧
      s.settle (s.aluApply (.other code) a b) = .next (s.takeFault .unsupportedOperation code)

/-- For every state with canonical memory and byte v: at sp = 0 the push raises MemoryFault(-1), and taking it leaves
sp at 0 and memory untouched; at every other sp, above 0xF4 too, it succeeds with the new sp one less as a number
(never wrapped to 255), v at the new sp, which is 0 to 254, and every other byte, register, pc, output, running, fault
record and configuration as before. (R120) -/
def Obligations.PushPrimitiveDecrementsThenWrites : Prop :=
  ∀ (s : State) (v : Byte), s.mem.wf →
    (s.sp = 0 → s.push v = .error ⟨.memoryFault, -1⟩ ∧
      ∃ t, s.settle (s.push v) = .next t ∧ t.sp = 0 ∧ t.mem = s.mem) ∧
    (s.sp ≠ 0 → ∃ t, s.push v = .ok t ∧ t.sp.toNat = s.sp.toNat - 1 ∧ t.sp.toNat ≤ 254 ∧
      t.mem.read t.sp.toNat = v ∧ s.SameMemExcept t t.sp.toNat ∧ s.SameRegsExcept t [7] ∧ t.pc = s.pc ∧
      t.out = s.out ∧ s.SameControl t)

/-- For every state: at sp of 0xF4 or more the pop raises StackUnderflow(sp); below, it answers the byte at sp and a
state whose sp (register 7) is one more as a number, at most 0xF4, with every byte of memory (the one read too), other
register, pc, output, running, fault record and configuration as before. (43_stack.md section 1 (R121, R122);
92_eei_decisions.md D11, D22) -/
def Obligations.PopPrimitiveReadsThenIncrements : Prop :=
  ∀ s : State,
    (0xF4 ≤ s.sp.toNat → s.pop = .error ⟨.stackUnderflow, s.sp.toNat⟩) ∧
    (s.sp.toNat < 0xF4 → ∃ t, s.pop = .ok (s.mem.read s.sp.toNat, t) ∧ (t.reg 7).toNat = s.sp.toNat + 1 ∧
      (t.reg 7).toNat ≤ 0xF4 ∧ s.SameRegsExcept t [7] ∧ t.pc = s.pc ∧ s.SameMem t ∧ t.out = s.out ∧ s.SameControl t)

/-- For every operand byte that names a register r (7 included: the old stack pointer is pushed), in every state with
canonical memory and sp not 0 PUSH completes: the byte at the push address (sp - 1 of the state before) is x[r] of the
state before, every other byte is as before, R7 is sp - 1, every other register, output, running, fault record and
configuration are as before, pc is two more. (43_stack.md section 2 (R123); 92_eei_decisions.md D14) -/
def Obligations.PushStoresTheRegister : Prop :=
  ∀ (s : State) (b : Byte) (r : Fin 8), NamesReg b r → s.mem.wf → s.sp ≠ 0 → ∃ t, exec (.push b) s = .next t ∧
    t.mem.read s.pushAddr = s.reg r ∧ s.SameMemExcept t s.pushAddr ∧ s.pushAddr = s.sp.toNat - 1 ∧
    t.reg 7 = s.sp - 1 ∧ s.SameRegsExcept t [7] ∧ t.pc = s.pc + 2 ∧ t.out = s.out ∧ s.SameControl t

/-- For every operand byte that names a register, in every state with sp = 0, PUSH takes MemoryFault with info -1;
nothing is stored and nothing else changes. (43_stack.md section 2 (R123); 60_exceptions.md section 1 (R153 c)) -/
def Obligations.PushAtZeroTakesMemoryFault : Prop :=
  ∀ (s : State) (b : Byte) (r : Fin 8), NamesReg b r → s.sp = 0 → exec (.push b) s = .next (s.takeFault .memoryFault (-1))

/-- For every operand byte that names a register r, in every state with sp below 0xF4 POP completes: x[r] is the byte
at sp of the state before (with r = 7 the register ends with that byte), with r not 7 R7 is sp + 1, every other
register, all of memory, output, running, fault record and configuration are as before, pc is two more. (43_stack.md
section 2 (R124); 92_eei_decisions.md D14) -/
def Obligations.PopLoadsTheRegister : Prop :=
  ∀ (s : State) (b : Byte) (r : Fin 8), NamesReg b r → s.sp.toNat < 0xF4 → ∃ t, exec (.pop b) s = .next t ∧
    t.reg r = s.mem.read s.sp.toNat ∧ (r ≠ 7 → t.reg 7 = s.sp + 1) ∧ s.SameRegsExcept t [7, r] ∧ t.pc = s.pc + 2 ∧
    s.SameMem t ∧ t.out = s.out ∧ s.SameControl t

/-- In every state with sp of 0xF4 or more, RET, and POP with an operand byte that names a register, take
StackUnderflow with info sp; nothing is popped and nothing else changes. (43_stack.md sections 1 and 2 (R121, R124);
44_call_return.md (R136); 60_exceptions.md section 1 (R156); 92_eei_decisions.md D11) -/
def Obligations.PopAndRetUnderflow : Prop :=
  ∀ (s : State) (b : Byte) (r : Fin 8), 0xF4 ≤ s.sp.toNat →
    (NamesReg b r → exec (.pop b) s = .next (s.takeFault .stackUnderflow s.sp.toNat)) ∧
    exec .ret s = .next (s.takeFault .stackUnderflow s.sp.toNat)

/-- For every operand byte that names a register r, in every state with canonical memory, sp not 0 and pc at most 253
CALL completes: the byte at the push address (sp - 1 of the state before) is pc + 2 as a number, every other byte is
as before, R7 is sp - 1, pc is x[r] zero-extended (with r = 7 the new stack pointer), every other register, output,
running, fault record and configuration are as before. (44_call_return.md (R135, R137); 92_eei_decisions.md D12, D13)
-/
def Obligations.CallPushesTheReturnAddressAndJumps : Prop :=
  ∀ (s : State) (b : Byte) (r : Fin 8), NamesReg b r → s.mem.wf → s.sp ≠ 0 → s.pc.toNat ≤ 253 →
    ∃ t, exec (.call b) s = .next t ∧ (t.mem.read s.pushAddr).toNat = s.pc.toNat + 2 ∧ s.SameMemExcept t s.pushAddr ∧
      t.reg 7 = s.sp - 1 ∧ s.SameRegsExcept t [7] ∧
      t.pc.toNat = (if r = 7 then s.sp - 1 else s.reg r).toNat ∧ t.out = s.out ∧ s.SameControl t

/-- For every operand byte that names a register: in every state with pc of 254 or more CALL takes MemoryFault with
info pc + 2 (256 at pc = 254), whatever sp; in every state with pc at most 253 and sp = 0 it takes MemoryFault with
info -1. Nothing is pushed and pc keeps its value. (44_call_return.md (R135); 60_exceptions.md sections 1 and 2 (R153,
R160); 92_eei_decisions.md D12) -/
def Obligations.CallFaults : Prop :=
  ∀ (s : State) (b : Byte) (r : Fin 8), NamesReg b r →
    (254 ≤ s.pc.toNat → exec (.call b) s = .next (s.takeFault .memoryFault (s.pc.toNat + 2))) ∧
    (s.pc.toNat ≤ 253 → s.sp = 0 → exec (.call b) s = .next (s.takeFault .memoryFault (-1)))

/-- In every state with sp below 0xF4 RET completes: pc is the byte at sp of the state before, zero-extended, R7 is sp
+ 1, every other register, all of memory (the popped cell too), output, running, fault record and configuration are as
before. (44_call_return.md (R136)) -/
def Obligations.RetPopsIntoPc : Prop :=
  ∀ s : State, s.sp.toNat < 0xF4 → ∃ t, exec .ret s = .next t ∧ t.pc.toNat = (s.mem.read s.sp.toNat).toNat ∧
    t.reg 7 = s.sp + 1 ∧ s.SameRegsExcept t [7] ∧ s.SameMem t ∧ t.out = s.out ∧ s.SameControl t

/-- For operand bytes that name r (7 included) and r2 not 7, from every state with canonical memory, sp not 0 and at
most 0xF4: PUSH r and then POP r2 both complete, x[r2] is x[r] of the state before, every register other than r2 (the
stack pointer too) is as before, and pc is four more. That r may be 7 (PUSH R7 pushes the pre-decrement value) is R126
a by the spec's own decision D14 (R123; log 10); the limit 0xF4 is the pop limit of D11. Destination R7 is what
PushesThenPopsEndingInR7 states. (43_stack.md sections 1 and 2 (R123, R126 a); 92_eei_decisions.md D11, D14) -/
def Obligations.PushThenPopMovesTheValue : Prop :=
  ∀ (s : State) (b b2 : Byte) (r r2 : Fin 8), NamesReg b r → NamesReg b2 r2 → r2 ≠ 7 → s.mem.wf → s.sp ≠ 0 →
    s.sp.toNat ≤ 0xF4 →
    ∃ t u, exec (.push b) s = .next t ∧ exec (.pop b2) t = .next u ∧ u.reg r2 = s.reg r ∧ u.sp = s.sp ∧
      s.SameRegsExcept u [r2] ∧ u.pc = s.pc + 4 ∧ u.out = s.out ∧ s.SameControl u

/-- For lists of N source operand bytes and N destination operand bytes, all naming registers and no destination 7,
from every state with canonical memory and N at most sp at most 0xF4 (the pop limit of D11): the N pushes and then the
N pops all complete without a fault and leave sp as before, every register that is no destination as before, and, if
the destinations are distinct, the k-th destination holds what the (N-1-k)-th push stored: the source register's
value, which for R7 is sp minus the number of pushes before it. That a pushed R7 is the stack pointer before that
push's decrement is the spec's own decision D14 (R123; log 10), not R126. A destination R7 is left out here because
POP R7 overwrites the stack pointer (R124, D14; R126 a excludes it): PushesThenPopsEndingInR7 states the sequence
whose last destination is R7, PopLoadsTheRegister every single POP R7. (43_stack.md sections 1 and 2 (R121, R123,
R124, R126 b); 92_eei_decisions.md D11, D14) -/
def Obligations.PushesThenPopsRestoreTheStackPointer : Prop :=
  ∀ (s : State) (rs qs : List Byte), rs.length = qs.length → (∀ b ∈ rs, b.toNat < 8) → (∀ b ∈ qs, b.toNat < 7) →
    s.mem.wf → rs.length ≤ s.sp.toNat → s.sp.toNat ≤ 0xF4 →
    ∃ u, execAll (rs.map Instr.push ++ qs.map Instr.pop) s = some u ∧ u.fault = s.fault ∧ u.sp = s.sp ∧
      (∀ j : Fin 8, (∀ b ∈ qs, ¬ NamesReg b j) → u.reg j = s.reg j) ∧
      (qs.Nodup → ∀ (k : Nat) (p q : Byte) (r d : Fin 8), qs[k]? = some q → rs[rs.length - 1 - k]? = some p →
        NamesReg p r → NamesReg q d →
        u.reg d = if r = 7 then s.sp - BitVec.ofNat 8 (rs.length - 1 - k) else s.reg r)

/-- From every Running state with canonical memory and R6's constraint met, where the instruction at pc is CALL r with
r not 7, pc is at most 253, sp is not 0 and at most 0xF4, the cell at the address A in x[r] holds the opcode byte of
RET, and the cell the CALL writes is not A: two steps are taken, the second leaves pc at the CALL's pc + 2, every
register as before (the stack pointer too), no fault record, output, running and configuration as before, and every
byte but the pushed one as before. (44_call_return.md (R138)) -/
def Obligations.CallThenRetReturns : Prop :=
  ∀ (s : State) (b : Byte) (r : Fin 8), s.status = .running → s.mem.wf → s.cfg.wf →
    s.current = some (.call b) → NamesReg b r → r ≠ 7 → s.pc.toNat ≤ 253 → s.sp ≠ 0 → s.sp.toNat ≤ 0xF4 →
    s.mem.read (s.reg r).toNat = s.cfg.opcodeOf .ret → s.pushAddr ≠ (s.reg r).toNat →
    ∃ t u, step s = .next t ∧ step t = .next u ∧ u.pc.toNat = s.pc.toNat + 2 ∧ s.SameRegsExcept u [] ∧
      s.SameControl u ∧ u.out = s.out ∧ s.SameMemExcept u s.pushAddr

/-- For a list of N + 1 source operand bytes naming registers and N destination operand bytes naming registers other
than 7, from every state with canonical memory and N + 1 at most sp at most 0xF4 (the pop limit of D11): the N + 1
pushes, the N pops and then POP R7 all complete without a fault; R7 ends with the first pushed value (of R0 to R6 the
register's value; of R7 the stack pointer of the state before), whatever the stack pointer of the state before was;
every other register that is no destination is as before; and, if the destinations are distinct, the k-th of them
holds what the (N-k)-th push stored. That PUSH R7 pushes the pre-decrement value and POP R7 ends with the popped byte
is the spec's own decision D14 (R123, R124; log 10). After a POP R7 that is not the last, each further pop is what
PopLoadsTheRegister and PopAndRetUnderflow say of the stack pointer it finds. (43_stack.md sections 1 and 2 (R121,
R123, R124, R126); 92_eei_decisions.md D11, D14) -/
def Obligations.PushesThenPopsEndingInR7 : Prop :=
  ∀ (s : State) (rs qs : List Byte), rs.length = qs.length + 1 → (∀ b ∈ rs, b.toNat < 8) → (∀ b ∈ qs, b.toNat < 7) →
    s.mem.wf → rs.length ≤ s.sp.toNat → s.sp.toNat ≤ 0xF4 →
    ∃ u, execAll (rs.map Instr.push ++ (qs.map Instr.pop ++ [.pop 7])) s = some u ∧ u.fault = s.fault ∧
      (∀ (p : Byte) (r : Fin 8), rs[0]? = some p → NamesReg p r → u.sp = s.reg r) ∧
      (∀ j : Fin 8, j ≠ 7 → (∀ b ∈ qs, ¬ NamesReg b j) → u.reg j = s.reg j) ∧
      (qs.Nodup → ∀ (k : Nat) (p q : Byte) (r d : Fin 8), qs[k]? = some q → rs[rs.length - 1 - k]? = some p →
        NamesReg p r → NamesReg q d →
        u.reg d = if r = 7 then s.sp - BitVec.ofNat 8 (rs.length - 1 - k) else s.reg r)
end

