-- ==== Sys2Proof/Laws/Decode.lean ====
section
/-! SUPPORT. The lookup of an opcode byte, and the shape of an encoding. -/

namespace Sys2Proof

/-- A byte that has a row: the row is in force and its byte is this one. -/
theorem Config.lookup_some {c : Config} {op : Byte} {m : Mnemonic} (h : c.lookup op = some m) :
    m ∈ c.mnemonics ∧ c.opcodeOf m = op := by
  simp only [Config.lookup, Config.table, List.find?_map, Option.map_map] at h
  obtain ⟨m', hf, rfl⟩ := Option.map_eq_some_iff.1 h
  exact ⟨List.mem_of_find?_eq_some hf, by simpa using List.find?_some hf⟩

/-- A byte that has no row is the byte of no row in force. -/
theorem Config.lookup_none {c : Config} {op : Byte} :
    c.lookup op = none ↔ ∀ m ∈ c.mnemonics, c.opcodeOf m ≠ op := by
  simp [Config.lookup, Config.table, List.find?_map, Function.comp_def]

/-- Under R6's constraint the byte of a row in force has that row. -/
theorem Config.lookup_opcodeOf {c : Config} (hc : c.wf) {m : Mnemonic} (hm : m ∈ c.mnemonics) :
    c.lookup (c.opcodeOf m) = some m := by
  cases h : c.lookup (c.opcodeOf m) with
  | none => exact absurd rfl (Config.lookup_none.1 h m hm)
  | some m' =>
    obtain ⟨hm', he⟩ := Config.lookup_some h
    have hnd : (c.mnemonics.map c.opcodeOf).Nodup := by
      simpa [Config.wf, Config.table, Function.comp_def] using hc
    exact congrArg some (List.inj_on_of_nodup_map hnd hm' hm he)

/-- The rows in force are the ten base rows and, with HAS_SUBDIV, the two optional ones (R56, R57). -/
theorem Config.mem_mnemonics {c : Config} (m : Mnemonic) :
    m ∈ c.mnemonics ↔ (m ≠ .sub ∧ m ≠ .div) ∨ c.hasSubdiv = true := by
  unfold Config.mnemonics
  cases c.hasSubdiv <;> cases m <;> simp

theorem Instr.inForce_iff {c : Config} (i : Instr) : i.inForce c = true ↔ i.mnemonic ∈ c.mnemonics := by
  rw [Config.mem_mnemonics]
  cases i <;> simp [Instr.inForce, Instr.optional, Instr.mnemonic]

/-- An instruction is at most three bytes long (R50). -/
theorem Instr.length_le (i : Instr) : i.length ≤ 3 := by
  cases i <;> simp [Instr.length, Instr.mnemonic, Mnemonic.format, Format.operandCount]

end Sys2Proof
end

