-- ==== Sys2Proof/Laws/State.lean ====
section
/-! SUPPORT. The small lemmas of the state: one for each field under each update, and the register file's read after
write. -/

namespace Sys2Proof.Machine

variable (s : State)

/-! ## The register file -/

theorem State.reg_setReg (i j : Fin 8) (v : Byte) : (s.setReg i v).reg j = if j = i then v else s.reg j := by
  simp only [State.reg, State.setReg, Fin.getElem_fin, Vector.getElem_set]
  by_cases h : i = j
  · simp [h]
  · simp [h, Fin.val_inj, Ne.symm h]

@[simp] theorem State.reg_setReg_self (i : Fin 8) (v : Byte) : (s.setReg i v).reg i = v := by
  simp [State.reg_setReg]

theorem State.reg_setReg_ne {i j : Fin 8} (h : j ≠ i) (v : Byte) : (s.setReg i v).reg j = s.reg j := by
  simp [State.reg_setReg, h]

/-- The stack pointer is register 7 (R13). -/
@[simp] theorem State.reg_seven : s.reg 7 = s.sp := rfl

theorem State.sp_setReg (i : Fin 8) (v : Byte) : (s.setReg i v).sp = if 7 = i then v else s.sp :=
  State.reg_setReg s i 7 v

@[simp] theorem State.sp_setSp (v : Byte) : (s.setSp v).sp = v := State.reg_setReg_self s spReg v

theorem State.reg_setSp (j : Fin 8) (v : Byte) : (s.setSp v).reg j = if j = 7 then v else s.reg j :=
  State.reg_setReg s spReg j v

/-! ## setReg -/

@[simp] theorem State.setReg_cfg (i : Fin 8) (v : Byte) : (s.setReg i v).cfg = s.cfg := rfl
@[simp] theorem State.setReg_pc (i : Fin 8) (v : Byte) : (s.setReg i v).pc = s.pc := rfl
@[simp] theorem State.setReg_running (i : Fin 8) (v : Byte) : (s.setReg i v).running = s.running := rfl
@[simp] theorem State.setReg_fault (i : Fin 8) (v : Byte) : (s.setReg i v).fault = s.fault := rfl
@[simp] theorem State.setReg_out (i : Fin 8) (v : Byte) : (s.setReg i v).out = s.out := rfl
@[simp] theorem State.setReg_mem (i : Fin 8) (v : Byte) : (s.setReg i v).mem = s.mem := rfl

/-! ## setSp -/

@[simp] theorem State.setSp_cfg (v : Byte) : (s.setSp v).cfg = s.cfg := rfl
@[simp] theorem State.setSp_pc (v : Byte) : (s.setSp v).pc = s.pc := rfl
@[simp] theorem State.setSp_running (v : Byte) : (s.setSp v).running = s.running := rfl
@[simp] theorem State.setSp_fault (v : Byte) : (s.setSp v).fault = s.fault := rfl
@[simp] theorem State.setSp_out (v : Byte) : (s.setSp v).out = s.out := rfl
@[simp] theorem State.setSp_mem (v : Byte) : (s.setSp v).mem = s.mem := rfl

/-! ## clearRunning -/

@[simp] theorem State.clearRunning_cfg : (s.clearRunning).cfg = s.cfg := rfl
@[simp] theorem State.clearRunning_pc : (s.clearRunning).pc = s.pc := rfl
@[simp] theorem State.clearRunning_running : (s.clearRunning).running = false := rfl
@[simp] theorem State.clearRunning_fault : (s.clearRunning).fault = s.fault := rfl
@[simp] theorem State.clearRunning_out : (s.clearRunning).out = s.out := rfl
@[simp] theorem State.clearRunning_mem : (s.clearRunning).mem = s.mem := rfl
@[simp] theorem State.clearRunning_reg (j : Fin 8) : (s.clearRunning).reg j = s.reg j := rfl
@[simp] theorem State.clearRunning_sp : (s.clearRunning).sp = s.sp := rfl

/-! ## advance -/

@[simp] theorem State.advance_cfg (w : Nat) : (s.advance w).cfg = s.cfg := rfl
@[simp] theorem State.advance_pc (w : Nat) : (s.advance w).pc = s.pc + BitVec.ofNat 9 w := rfl
@[simp] theorem State.advance_running (w : Nat) : (s.advance w).running = s.running := rfl
@[simp] theorem State.advance_fault (w : Nat) : (s.advance w).fault = s.fault := rfl
@[simp] theorem State.advance_out (w : Nat) : (s.advance w).out = s.out := rfl
@[simp] theorem State.advance_mem (w : Nat) : (s.advance w).mem = s.mem := rfl
@[simp] theorem State.advance_reg (w : Nat) (j : Fin 8) : (s.advance w).reg j = s.reg j := rfl
@[simp] theorem State.advance_sp (w : Nat) : (s.advance w).sp = s.sp := rfl

/-! ## jump -/

@[simp] theorem State.jump_cfg (p : PcWord) : (s.jump p).cfg = s.cfg := rfl
@[simp] theorem State.jump_pc (p : PcWord) : (s.jump p).pc = p := rfl
@[simp] theorem State.jump_running (p : PcWord) : (s.jump p).running = s.running := rfl
@[simp] theorem State.jump_fault (p : PcWord) : (s.jump p).fault = s.fault := rfl
@[simp] theorem State.jump_out (p : PcWord) : (s.jump p).out = s.out := rfl
@[simp] theorem State.jump_mem (p : PcWord) : (s.jump p).mem = s.mem := rfl
@[simp] theorem State.jump_reg (p : PcWord) (j : Fin 8) : (s.jump p).reg j = s.reg j := rfl
@[simp] theorem State.jump_sp (p : PcWord) : (s.jump p).sp = s.sp := rfl

/-! ## emit -/

@[simp] theorem State.emit_cfg (v : Byte) : (s.emit v).cfg = s.cfg := rfl
@[simp] theorem State.emit_pc (v : Byte) : (s.emit v).pc = s.pc := rfl
@[simp] theorem State.emit_running (v : Byte) : (s.emit v).running = s.running := rfl
@[simp] theorem State.emit_fault (v : Byte) : (s.emit v).fault = s.fault := rfl
@[simp] theorem State.emit_out (v : Byte) : (s.emit v).out = s.out ++ [v] := rfl
@[simp] theorem State.emit_mem (v : Byte) : (s.emit v).mem = s.mem := rfl
@[simp] theorem State.emit_reg (v : Byte) (j : Fin 8) : (s.emit v).reg j = s.reg j := rfl
@[simp] theorem State.emit_sp (v : Byte) : (s.emit v).sp = s.sp := rfl

/-! ## takeFault -/

@[simp] theorem State.takeFault_cfg (c : Cause) (n : Int) : (s.takeFault c n).cfg = s.cfg := rfl
@[simp] theorem State.takeFault_pc (c : Cause) (n : Int) : (s.takeFault c n).pc = s.pc := rfl
@[simp] theorem State.takeFault_running (c : Cause) (n : Int) : (s.takeFault c n).running = s.running := rfl
@[simp] theorem State.takeFault_fault (c : Cause) (n : Int) : (s.takeFault c n).fault = some ⟨c, n, s.pc⟩ := rfl
@[simp] theorem State.takeFault_out (c : Cause) (n : Int) : (s.takeFault c n).out = s.out := rfl
@[simp] theorem State.takeFault_mem (c : Cause) (n : Int) : (s.takeFault c n).mem = s.mem := rfl
@[simp] theorem State.takeFault_reg (c : Cause) (n : Int) (j : Fin 8) : (s.takeFault c n).reg j = s.reg j := rfl
@[simp] theorem State.takeFault_sp (c : Cause) (n : Int) : (s.takeFault c n).sp = s.sp := rfl

/-! ## Two states with the same fields are the same -/

theorem State.ext_fields {s t : State} (hc : t.cfg = s.cfg) (hx : ∀ j, t.reg j = s.reg j) (hp : t.pc = s.pc)
    (hr : t.running = s.running) (hf : t.fault = s.fault) (ho : t.out = s.out) (hm : t.mem = s.mem) : t = s := by
  have hx' : t.x = s.x := Vector.ext fun i hi => hx ⟨i, hi⟩
  cases s
  cases t
  simp_all

end Sys2Proof.Machine
end

