-- ==== Sys2Proof/Laws/Memory.lean ====
section
/-! SUPPORT. The laws of memory: a read after a write, and that every memory operation keeps the canonical form. -/

namespace Sys2Proof.Machine

@[simp] theorem Memory.read_nil (a : Nat) : Memory.read [] a = Memory.unlisted := rfl

theorem Memory.read_cons (k : Nat) (v : Byte) (m : Memory) (a : Nat) :
    Memory.read ((k, v) :: m) a = if k = a then v else Memory.read m a := rfl

theorem Memory.wf_nil : Memory.wf [] := by simp [Memory.wf]

/-- Reset memory is canonical, in every configuration. -/
theorem State.resetWith_mem_wf (c : Config) : (State.resetWith c).mem.wf := Memory.wf_nil

/-- The canonical form of a list with a first entry: the entry is legal, the rest lies above it and is canonical. -/
theorem Memory.wf_cons {k : Nat} {v : Byte} {m : Memory} :
    Memory.wf ((k, v) :: m) ↔ (k < memSize ∧ v ≠ Memory.unlisted ∧ ∀ c ∈ m, k < c.1) ∧ m.wf := by
  simp only [Memory.wf, List.pairwise_cons, List.forall_mem_cons]
  tauto

/-- A cell below every listed address reads as an unlisted one. -/
theorem Memory.read_below {m : Memory} {a : Nat} (h : ∀ c ∈ m, a < c.1) : m.read a = Memory.unlisted := by
  induction m with
  | nil => rfl
  | cons c m ih =>
    obtain ⟨k, v⟩ := c
    simp only [List.forall_mem_cons] at h
    have hne : k ≠ a := by omega
    simp [Memory.read_cons, hne, ih h.2]

/-- Putting an entry below a list: it reads back, and the list reads as before elsewhere. -/
theorem Memory.read_put {m : Memory} {a : Nat} (v : Byte) (h : ∀ c ∈ m, a < c.1) (b : Nat) :
    (Memory.put a v m).read b = if b = a then v else m.read b := by
  unfold Memory.put
  by_cases hb : b = a
  · subst hb
    split
    · rename_i hv
      simp [Memory.read_below h, hv]
    · simp [Memory.read_cons]
  · rw [if_neg hb]
    split
    · rfl
    · rw [Memory.read_cons, if_neg (Ne.symm hb)]

theorem Memory.put_wf {m : Memory} {a : Nat} (v : Byte) (ha : a < memSize) (h : ∀ c ∈ m, a < c.1) (hm : m.wf) :
    (Memory.put a v m).wf := by
  unfold Memory.put
  split
  · exact hm
  · exact Memory.wf_cons.2 ⟨⟨ha, ‹_›, h⟩, hm⟩

/-- Every address a write can list is the written one or was listed before. -/
theorem Memory.mem_write {m : Memory} {a : Nat} {v : Byte} {c : Host.Cell} (h : c ∈ m.write a v) :
    c.1 = a ∨ c ∈ m := by
  induction m with
  | nil =>
    simp only [Memory.write, Memory.put] at h
    split at h <;> simp_all
  | cons d m ih =>
    obtain ⟨k, w⟩ := d
    simp only [Memory.write, Memory.put] at h
    split at h
    · split at h <;> simp_all
      rcases h with h | h | h <;> simp_all
    · split at h
      · split at h <;> simp_all
        rcases h with h | h <;> simp_all
      · rcases List.mem_cons.1 h with h | h
        · simp [h]
        · rcases ih h with h | h <;> simp_all

/-- Read after write: the written cell reads as the byte, every other cell as before (R31). -/
theorem Memory.read_write {m : Memory} (hm : m.wf) (a : Nat) (v : Byte) (b : Nat) :
    (m.write a v).read b = if b = a then v else m.read b := by
  induction m with
  | nil => simpa [Memory.write] using Memory.read_put (m := []) (a := a) v (by simp) b
  | cons c m ih =>
    obtain ⟨k, w⟩ := c
    obtain ⟨⟨_, _, hk⟩, hm'⟩ := Memory.wf_cons.1 hm
    simp only [Memory.write]
    split
    · rename_i hlt
      refine Memory.read_put v ?_ b
      simp only [List.forall_mem_cons]
      exact ⟨hlt, fun c hc => lt_trans hlt (hk c hc)⟩
    · split
      · rename_i heq
        subst heq
        rw [Memory.read_put v hk b, Memory.read_cons]
        by_cases hb : b = k
        · simp [hb]
        · simp [hb, Ne.symm hb]
      · rename_i hne
        rw [Memory.read_cons, Memory.read_cons, ih hm']
        by_cases hb : b = a
        · simp [hb, hne]
        · simp [hb]

/-- A write inside memory keeps the canonical form. -/
theorem Memory.write_wf {m : Memory} (hm : m.wf) {a : Nat} (ha : a < memSize) (v : Byte) : (m.write a v).wf := by
  induction m with
  | nil => exact Memory.put_wf v ha (by simp) Memory.wf_nil
  | cons c m ih =>
    obtain ⟨k, w⟩ := c
    obtain ⟨⟨hks, hw, hk⟩, hm'⟩ := Memory.wf_cons.1 hm
    simp only [Memory.write]
    split
    · rename_i hlt
      refine Memory.put_wf v ha ?_ hm
      simp only [List.forall_mem_cons]
      exact ⟨hlt, fun c hc => lt_trans hlt (hk c hc)⟩
    · split
      · rename_i heq
        subst heq
        exact Memory.put_wf v ha hk hm'
      · refine Memory.wf_cons.2 ⟨⟨hks, hw, fun c hc => ?_⟩, ih hm'⟩
        rcases Memory.mem_write hc with h | h
        · omega
        · exact hk c h

/-- Writing bytes at rising addresses keeps the canonical form. -/
theorem Memory.writeBytes_wf {m : Memory} (hm : m.wf) (a : Nat) (vs : List Byte) : (m.writeBytes a vs).wf := by
  induction vs generalizing m a with
  | nil => exact hm
  | cons v vs ih =>
    simp only [Memory.writeBytes]
    split
    · exact ih (Memory.write_wf hm ‹_› v) _
    · exact ih hm _

/-- After writing bytes at rising addresses, each cell reads as its byte and every other cell as before. -/
theorem Memory.read_writeBytes {m : Memory} (hm : m.wf) (a : Nat) (vs : List Byte) (b : Nat) (hb : b < memSize) :
    (m.writeBytes a vs).read b = if a ≤ b then (vs[b - a]?).getD (m.read b) else m.read b := by
  induction vs generalizing m a with
  | nil => simp [Memory.writeBytes]
  | cons v vs ih =>
    simp only [Memory.writeBytes]
    by_cases ha : a < memSize
    · rw [if_pos ha, ih (Memory.write_wf hm ha v), Memory.read_write hm]
      rcases lt_trichotomy a b with h | h | h
      · have e : b - a = (b - (a + 1)) + 1 := by omega
        simp [e, show a + 1 ≤ b by omega, show a ≤ b by omega, show b ≠ a by omega]
      · subst h
        simp
      · simp [show ¬ a + 1 ≤ b by omega, show ¬ a ≤ b by omega, show b ≠ a by omega]
    · simp [if_neg ha, ih hm, show ¬ a + 1 ≤ b by omega, show ¬ a ≤ b by omega]

/-- An unchanged listing reads the same; two canonical memories that read the same are the same list. -/
theorem Memory.eq_of_read_eq {m n : Memory} (hm : m.wf) (hn : n.wf) (h : ∀ a, m.read a = n.read a) : m = n := by
  induction m generalizing n with
  | nil =>
    cases n with
    | nil => rfl
    | cons d n =>
      obtain ⟨k, w⟩ := d
      obtain ⟨⟨_, hw, _⟩, _⟩ := Memory.wf_cons.1 hn
      exact absurd (by simpa [Memory.read_cons] using (h k).symm) hw
  | cons c m ih =>
    obtain ⟨k, v⟩ := c
    obtain ⟨⟨_, hv, hk⟩, hm'⟩ := Memory.wf_cons.1 hm
    cases n with
    | nil => exact absurd (by simpa [Memory.read_cons] using h k) hv
    | cons d n =>
      obtain ⟨l, w⟩ := d
      obtain ⟨⟨_, hw, hl⟩, hn'⟩ := Memory.wf_cons.1 hn
      have below_m : ∀ a, a ≤ k → Memory.read m a = Memory.unlisted := fun a ha =>
        Memory.read_below fun c hc => lt_of_le_of_lt ha (hk c hc)
      have below_n : ∀ a, a ≤ l → Memory.read n a = Memory.unlisted := fun a ha =>
        Memory.read_below fun c hc => lt_of_le_of_lt ha (hl c hc)
      have hkl : k = l := by
        rcases lt_trichotomy k l with hlt | heq | hlt
        · have := h k
          simp only [Memory.read_cons, if_true, if_neg (Nat.ne_of_gt hlt), below_n k hlt.le] at this
          exact absurd this hv
        · exact heq
        · have := h l
          simp only [Memory.read_cons, if_true, if_neg (Nat.ne_of_gt hlt), below_m l hlt.le] at this
          exact absurd this.symm hw
      subst hkl
      have hvw : v = w := by simpa [Memory.read_cons] using h k
      subst hvw
      have : m = n := ih hm' hn' fun a => by
        by_cases ha : k = a
        · subst ha
          rw [below_m k le_rfl, below_n k le_rfl]
        · simpa [Memory.read_cons, ha] using h a
      rw [this]

end Sys2Proof.Machine
end

