-- ==== Sys2Proof/Laws/Ops.lean ====
section
/-! SUPPORT. For each shared operation, what it can do: the lemmas a proof cites instead of unfolding the operation. -/

namespace Sys2Proof.Machine

/-! ## The steps of a meaning -/

@[simp] theorem except_pure_bind {α β : Type} (v : α) (f : α → Except Raised β) : (Except.ok v >>= f) = f v := rfl

@[simp] theorem except_error_bind {α β : Type} (r : Raised) (f : α → Except Raised β) :
    ((Except.error r : Except Raised α) >>= f) = Except.error r := rfl

@[simp] theorem except_pure {α : Type} (v : α) : (pure v : Except Raised α) = Except.ok v := rfl

@[simp] theorem State.settle_ok (s t : State) : s.settle (.ok t) = .next t := rfl

@[simp] theorem State.settle_error (s : State) (r : Raised) :
    s.settle (.error r) = .next (s.takeFault r.cause r.info) := rfl

/-- What a meaning can answer: the state its steps leave, or the state it began with and a fault taken. -/
theorem State.settle_cases {s t : State} {e : Except Raised State} (h : s.settle e = .next t) :
    e = .ok t ∨ ∃ r, e = .error r ∧ t = s.takeFault r.cause r.info := by
  cases e with
  | ok u => exact .inl (by simpa using h)
  | error r => exact .inr ⟨r, rfl, by simpa using h.symm⟩

/-! ## Operands -/

theorem regIndex_ok {b : Byte} (h : b.toNat < 8) : regIndex b = .ok ⟨b.toNat, h⟩ := by simp [regIndex, h]

theorem regIndex_bad {b : Byte} (h : 8 ≤ b.toNat) : regIndex b = .error ⟨.invalidRegister, b.toNat⟩ := by
  simp [regIndex, h]

theorem regIndex_cases (b : Byte) :
    (∃ i : Fin 8, i.val = b.toNat ∧ regIndex b = .ok i) ∨
      (8 ≤ b.toNat ∧ regIndex b = .error ⟨.invalidRegister, b.toNat⟩) := by
  by_cases h : b.toNat < 8
  · exact .inl ⟨⟨b.toNat, h⟩, rfl, regIndex_ok h⟩
  · exact .inr ⟨by omega, regIndex_bad (by omega)⟩

/-! ## Memory access -/

theorem State.memRead_ok (s : State) {a : Nat} (h : a < memSize) : s.memRead a = .ok (s.mem.read a) := by
  simp [State.memRead, h]

theorem State.memRead_bad (s : State) {a : Nat} (h : memSize ≤ a) : s.memRead a = .error ⟨.memoryFault, a⟩ := by
  simp [State.memRead, h]

theorem State.memWrite_ok (s : State) {a : Nat} (v : Byte) (h : a < memSize) :
    s.memWrite a v = .ok { s with mem := s.mem.write a v } := by
  simp [State.memWrite, h]

theorem State.memWrite_bad (s : State) {a : Nat} (v : Byte) (h : memSize ≤ a) :
    s.memWrite a v = .error ⟨.memoryFault, a⟩ := by
  simp [State.memWrite, h]

/-- A write that succeeds keeps the canonical form. -/
theorem State.memWrite_wf {s t : State} {a : Nat} {v : Byte} (hm : s.mem.wf) (h : s.memWrite a v = .ok t) : t.mem.wf := by
  by_cases ha : a < memSize
  · rw [State.memWrite_ok s v ha] at h
    cases h
    exact Memory.write_wf hm ha v
  · rw [State.memWrite_bad s v (by omega)] at h
    cases h

/-- A byte always lies inside memory when it is used as an address (R121). -/
theorem byte_lt_memSize (v : Byte) : v.toNat < memSize := v.isLt

theorem State.fetchByte_eq (s : State) (k : Nat) :
    s.fetchByte k = if s.pc.toNat + k < memSize then some (s.mem.read (s.pc.toNat + k)) else none := by
  unfold State.fetchByte
  split
  · rw [State.memRead_ok s ‹_›]
    rfl
  · rw [State.memRead_bad s (by omega)]
    rfl

/-! ## The stack -/

/-- The state a push leaves: the stack pointer one lower, the byte in the cell it then points to (R120). -/
def State.pushed (s : State) (v : Byte) : State :=
  { s.setSp (s.sp - 1) with mem := s.mem.write s.pushAddr v }

theorem State.push_ok {s : State} (v : Byte) (h : s.sp ≠ 0) : s.push v = .ok (s.pushed v) := by
  rw [State.push, if_neg h, State.pushAddr, State.memWrite_ok _ v (byte_lt_memSize (s.sp - 1))]
  rfl

theorem State.push_empty {s : State} (v : Byte) (h : s.sp = 0) : s.push v = .error ⟨.memoryFault, -1⟩ := by
  simp [State.push, h]

/-- A push keeps the canonical form of memory. -/
theorem State.pushed_wf {s : State} (hm : s.mem.wf) (v : Byte) : (s.pushed v).mem.wf :=
  Memory.write_wf hm (byte_lt_memSize (s.sp - 1)) v

/-- The state a pop leaves: the stack pointer one higher (R121). -/
def State.popped (s : State) : State := s.setSp (s.sp + 1)

theorem State.pop_ok {s : State} (h : s.sp < stackTop) : s.pop = .ok (s.mem.read s.sp.toNat, s.popped) := by
  have h' : ¬ stackTop ≤ s.sp := BitVec.not_le.2 h
  simp [State.pop, h', State.memRead_ok s (byte_lt_memSize s.sp), State.popped]

theorem State.pop_underflow {s : State} (h : stackTop ≤ s.sp) : s.pop = .error ⟨.stackUnderflow, s.sp.toNat⟩ := by
  simp [State.pop, h]

@[simp] theorem State.pushed_cfg (s : State) (v : Byte) : (s.pushed v).cfg = s.cfg := rfl
@[simp] theorem State.pushed_pc (s : State) (v : Byte) : (s.pushed v).pc = s.pc := rfl
@[simp] theorem State.pushed_running (s : State) (v : Byte) : (s.pushed v).running = s.running := rfl
@[simp] theorem State.pushed_fault (s : State) (v : Byte) : (s.pushed v).fault = s.fault := rfl
@[simp] theorem State.pushed_out (s : State) (v : Byte) : (s.pushed v).out = s.out := rfl
@[simp] theorem State.pushed_mem (s : State) (v : Byte) : (s.pushed v).mem = s.mem.write s.pushAddr v := rfl
theorem State.pushed_reg (s : State) (v : Byte) (j : Fin 8) :
    (s.pushed v).reg j = if j = 7 then s.sp - 1 else s.reg j := State.reg_setSp s j _
@[simp] theorem State.pushed_sp (s : State) (v : Byte) : (s.pushed v).sp = s.sp - 1 := State.sp_setSp s _

@[simp] theorem State.popped_cfg (s : State) : s.popped.cfg = s.cfg := rfl
@[simp] theorem State.popped_pc (s : State) : s.popped.pc = s.pc := rfl
@[simp] theorem State.popped_running (s : State) : s.popped.running = s.running := rfl
@[simp] theorem State.popped_fault (s : State) : s.popped.fault = s.fault := rfl
@[simp] theorem State.popped_out (s : State) : s.popped.out = s.out := rfl
@[simp] theorem State.popped_mem (s : State) : s.popped.mem = s.mem := rfl
theorem State.popped_reg (s : State) (j : Fin 8) :
    s.popped.reg j = if j = 7 then s.sp + 1 else s.reg j := State.reg_setSp s j _
@[simp] theorem State.popped_sp (s : State) : s.popped.sp = s.sp + 1 := State.sp_setSp s _

/-! ## CALL's return address -/

theorem State.returnAddress_ok {s : State} (h : s.pc.toNat ≤ 253) :
    s.returnAddress = .ok (BitVec.ofNat 8 (s.pc.toNat + 2)) := by
  simp [State.returnAddress, show ¬ 255 < s.pc.toNat + 2 by omega]

theorem State.returnAddress_bad {s : State} (h : 253 < s.pc.toNat) :
    s.returnAddress = .error ⟨.memoryFault, ((s.pc.toNat + 2 : Nat) : Int)⟩ := by
  simp [State.returnAddress, show 255 < s.pc.toNat + 2 by omega]

/-! ## The status -/

theorem State.status_running {s : State} : s.status = .running ↔ s.fault = none ∧ s.running = true := by
  unfold State.status
  split <;> simp_all

theorem State.status_halted {s : State} : s.status = .halted ↔ s.fault = none ∧ s.running = false := by
  unfold State.status
  split <;> simp_all

theorem State.status_faulted {s : State} : s.status = .faulted ↔ s.fault ≠ none := by
  unfold State.status
  split <;> simp_all

end Sys2Proof.Machine
end

