-- ==== Sys2Proof/Laws/Exec.lean ====
section
/-! SUPPORT. What the meanings and the step can do, said once: the inversion lemmas that a proof about all instructions
cites. -/

namespace Sys2Proof.Machine

/-! ## The bytes a step fetches -/

theorem State.window_getElem (s : State) {k : Nat} (hk : k < 3) : s.window[k]? = s.fetchByte k := by
  rw [State.fetchByte_eq]
  have hw : s.window =
      ([s.pc.toNat, s.pc.toNat + 1, s.pc.toNat + 2].filter fun a => decide (a < memSize)).map s.mem.read := rfl
  rw [hw]
  by_cases h0 : s.pc.toNat < memSize <;> by_cases h1 : s.pc.toNat + 1 < memSize <;>
    by_cases h2 : s.pc.toNat + 2 < memSize <;> first | omega | (interval_cases k <;> simp [h0, h1, h2])

/-- The decoder looks at no byte beyond the third. -/
theorem decodeFrom_congr (c : Config) {f g : Nat → Option Byte} (h : ∀ k, k < 3 → f k = g k) :
    decodeFrom c f = decodeFrom c g := by
  simp only [decodeFrom, h 0 (by omega), h 1 (by omega), h 2 (by omega)]

/-- What a step decodes is what stands in the window at `pc`. -/
theorem State.decode_window (s : State) : decode s.cfg s.window = decodeFrom s.cfg s.fetchByte :=
  decodeFrom_congr s.cfg fun _ hk => s.window_getElem hk

theorem State.current_eq_some {s : State} {i : Instr} : s.current = some i ↔ decode s.cfg s.window = .ok i := by
  unfold State.current
  cases decode s.cfg s.window <;> simp [Except.toOption]

theorem State.fetchInstr_ok {s : State} {i : Instr} : s.fetchInstr = .ok i ↔ decode s.cfg s.window = .ok i := by
  rw [State.decode_window, State.fetchInstr]
  cases decodeFrom s.cfg s.fetchByte <;> simp

/-! ## What an instruction can do -/

/-- The effect of an instruction whose checks all passed: the state it leaves. -/
def Effect (s t : State) : Instr → Prop
  | .hlt => t = s.clearRunning.advance 1
  | .ldi b imm => ∃ r, NamesReg b r ∧ t = (s.setReg r imm).advance 3
  | .prn b => ∃ r, NamesReg b r ∧ t = (s.emit (s.reg r)).advance 2
  | .mul p q => ∃ a b, NamesReg p a ∧ NamesReg q b ∧ t = (s.setReg a (aluMul (s.reg a) (s.reg b))).advance 3
  | .add p q => ∃ a b, NamesReg p a ∧ NamesReg q b ∧ t = (s.setReg a (aluAdd (s.reg a) (s.reg b))).advance 3
  | .push b => ∃ r, NamesReg b r ∧ s.sp ≠ 0 ∧ t = (s.pushed (s.reg r)).advance 2
  | .pop b => ∃ r, NamesReg b r ∧ s.sp < stackTop ∧ t = (s.popped.setReg r (s.mem.read s.sp.toNat)).advance 2
  | .call b => ∃ r, NamesReg b r ∧ s.pc.toNat ≤ 253 ∧ s.sp ≠ 0 ∧
      t = (s.pushed (BitVec.ofNat 8 (s.pc.toNat + 2))).jump
        (zext9 ((s.pushed (BitVec.ofNat 8 (s.pc.toNat + 2))).reg r))
  | .ret => s.sp < stackTop ∧ t = s.popped.jump (zext9 (s.mem.read s.sp.toNat))
  | .nop => t = s.advance 1
  | .sub p q => ∃ a b, NamesReg p a ∧ NamesReg q b ∧ t = (s.setReg a (aluSub (s.reg a) (s.reg b))).advance 3
  | .div p q => ∃ a b, NamesReg p a ∧ NamesReg q b ∧ s.reg b ≠ 0 ∧
      t = (s.setReg a (aluDiv (s.reg a) (s.reg b))).advance 3

/-- What an instruction raises when a check fails: an illegal register operand, or one of its own checks. -/
def Raises (s : State) (r : Raised) (i : Instr) : Prop :=
  (∃ b ∈ i.regOperands, 8 ≤ b.toNat ∧ r = ⟨.invalidRegister, b.toNat⟩) ∨
  (¬ ownChecksPass s i ∧
    ((∃ b, i = .push b ∧ r = ⟨.memoryFault, -1⟩) ∨
     (∃ b, i = .call b ∧ s.pc.toNat ≤ 253 ∧ r = ⟨.memoryFault, -1⟩) ∨
     (∃ b, i = .call b ∧ 253 < s.pc.toNat ∧ r = ⟨.memoryFault, ((s.pc.toNat + 2 : Nat) : Int)⟩) ∨
     (((∃ b, i = .pop b) ∨ i = .ret) ∧ stackTop ≤ s.sp ∧ r = ⟨.stackUnderflow, s.sp.toNat⟩) ∨
     (∃ p q b, i = .div p q ∧ NamesReg q b ∧ s.reg b = 0 ∧ r = ⟨.divisionByZero, (b.val : Int)⟩)))

theorem NamesReg.unique {b : Byte} {r r' : Fin 8} (h : NamesReg b r) (h' : NamesReg b r') : r = r' :=
  Fin.ext (h.symm.trans h')

theorem regIndex_names {b : Byte} {r : Fin 8} (h : NamesReg b r) : regIndex b = .ok r := by
  have hb : b.toNat < 8 := by rw [h]; exact r.isLt
  rw [regIndex_ok hb]
  exact congrArg Except.ok (Fin.ext h)

/-- A register operand either names a register or raises InvalidRegister. -/
theorem regIndex_split (b : Byte) :
    (∃ r, NamesReg b r ∧ regIndex b = .ok r) ∨ (8 ≤ b.toNat ∧ regIndex b = .error ⟨.invalidRegister, b.toNat⟩) := by
  rcases regIndex_cases b with ⟨i, hi, h⟩ | h
  · exact .inl ⟨i, hi.symm, h⟩
  · exact .inr h

/-- What the shared form of the ALU instructions does with legal operands. -/
theorem State.aluInstr_ok {s : State} {op : AluSelector} {p q : Byte} {a b : Fin 8} (ha : NamesReg p a)
    (hb : NamesReg q b) :
    s.aluInstr op p q = s.settle (s.aluApply op a b >>= fun t => pure (t.advance 3)) := by
  simp only [State.aluInstr, regIndex_names ha, regIndex_names hb, except_pure_bind]

/-- An ALU instruction with an illegal operand raises InvalidRegister with the first one (R74). -/
theorem State.aluInstr_bad {s : State} {op : AluSelector} {p q : Byte} (h : 8 ≤ p.toNat ∨ 8 ≤ q.toNat) :
    ∃ b ∈ [p, q], 8 ≤ b.toNat ∧ s.aluInstr op p q = .next (s.takeFault .invalidRegister b.toNat) := by
  rcases regIndex_split p with ⟨a, ha, he⟩ | ⟨hp, he⟩
  · have hq : 8 ≤ q.toNat := h.resolve_left (by rw [ha]; omega)
    exact ⟨q, by simp, hq, by simp [State.aluInstr, he, regIndex_bad hq]⟩
  · exact ⟨p, by simp, hp, by simp [State.aluInstr, he]⟩

/-- The inversion of an ALU instruction that has a result for every operand. -/
theorem State.aluInstr_cases {s t : State} {op : AluSelector} {p q : Byte} (h : s.aluInstr op p q = .next t) :
    (∃ b ∈ [p, q], 8 ≤ b.toNat ∧ t = s.takeFault .invalidRegister b.toNat) ∨
    ∃ a b, NamesReg p a ∧ NamesReg q b ∧
      s.settle (s.aluApply op a b >>= fun t => pure (t.advance 3)) = .next t := by
  by_cases hb : 8 ≤ p.toNat ∨ 8 ≤ q.toNat
  · obtain ⟨b, hm, h8, he⟩ := State.aluInstr_bad (s := s) (op := op) hb
    exact .inl ⟨b, hm, h8, by simpa [he] using h.symm⟩
  · rcases regIndex_split p with ⟨a, ha, _⟩ | ⟨hp, _⟩
    · rcases regIndex_split q with ⟨b, hb', _⟩ | ⟨hq, _⟩
      · exact .inr ⟨a, b, ha, hb', by rw [← State.aluInstr_ok ha hb']; exact h⟩
      · exact absurd (.inr hq) hb
    · exact absurd (.inl hp) hb

theorem sp_below_or_above (s : State) : s.sp < stackTop ∨ stackTop ≤ s.sp :=
  (Nat.lt_or_ge s.sp.toNat stackTop.toNat).imp BitVec.lt_def.2 BitVec.le_def.2

/-- What a meaning can answer: the state of its effect, or the state it began with and a fault of its own taken. -/
theorem exec_cases {i : Instr} {s t : State} (h : exec i s = .next t) :
    Effect s t i ∨ ∃ r, Raises s r i ∧ t = s.takeFault r.cause r.info := by
  cases i with
  | hlt => exact .inl (by simpa [exec, execHlt, Effect] using h.symm)
  | nop => exact .inl (by simpa [exec, execNop, Effect] using h.symm)
  | ldi b imm =>
    rcases regIndex_split b with ⟨r, hr, he⟩ | ⟨h8, he⟩
    · exact .inl ⟨r, hr, by simpa [exec, execLdi, he] using h.symm⟩
    · exact .inr ⟨⟨.invalidRegister, b.toNat⟩, .inl ⟨b, by simp [Instr.regOperands], h8, rfl⟩, by simpa [exec, execLdi, he] using h.symm⟩
  | prn b =>
    rcases regIndex_split b with ⟨r, hr, he⟩ | ⟨h8, he⟩
    · exact .inl ⟨r, hr, by simpa [exec, execPrn, he] using h.symm⟩
    · exact .inr ⟨⟨.invalidRegister, b.toNat⟩, .inl ⟨b, by simp [Instr.regOperands], h8, rfl⟩, by simpa [exec, execPrn, he] using h.symm⟩
  | mul p q =>
    rcases State.aluInstr_cases h with ⟨b, hm, h8, he⟩ | ⟨a, b, ha, hb, he⟩
    · exact .inr ⟨⟨.invalidRegister, b.toNat⟩, .inl ⟨b, hm, h8, rfl⟩, he⟩
    · exact .inl ⟨a, b, ha, hb, by simpa [State.aluApply] using he.symm⟩
  | add p q =>
    rcases State.aluInstr_cases h with ⟨b, hm, h8, he⟩ | ⟨a, b, ha, hb, he⟩
    · exact .inr ⟨⟨.invalidRegister, b.toNat⟩, .inl ⟨b, hm, h8, rfl⟩, he⟩
    · exact .inl ⟨a, b, ha, hb, by simpa [State.aluApply] using he.symm⟩
  | sub p q =>
    rcases State.aluInstr_cases h with ⟨b, hm, h8, he⟩ | ⟨a, b, ha, hb, he⟩
    · exact .inr ⟨⟨.invalidRegister, b.toNat⟩, .inl ⟨b, hm, h8, rfl⟩, he⟩
    · exact .inl ⟨a, b, ha, hb, by simpa [State.aluApply] using he.symm⟩
  | div p q =>
    rcases State.aluInstr_cases h with ⟨b, hm, h8, he⟩ | ⟨a, b, ha, hb, he⟩
    · exact .inr ⟨⟨.invalidRegister, b.toNat⟩, .inl ⟨b, hm, h8, rfl⟩, he⟩
    · by_cases hz : s.reg b = 0
      · refine .inr ⟨⟨.divisionByZero, (b.val : Int)⟩, .inr ⟨fun hc => hc b hb hz, ?_⟩, ?_⟩
        · exact .inr (.inr (.inr (.inr ⟨p, q, b, rfl, hb, hz, rfl⟩)))
        · rw [State.aluApply, if_pos hz] at he
          simpa using he.symm
      · rw [State.aluApply, if_neg hz] at he
        exact .inl ⟨a, b, ha, hb, hz, by simpa using he.symm⟩
  | push b =>
    rcases regIndex_split b with ⟨r, hr, he⟩ | ⟨h8, he⟩
    · by_cases hz : s.sp = 0
      · refine .inr ⟨⟨.memoryFault, -1⟩, .inr ⟨fun hc => hc hz, .inl ⟨b, rfl, rfl⟩⟩, ?_⟩
        simpa [exec, execPush, he, State.push_empty _ hz] using h.symm
      · exact .inl ⟨r, hr, hz, by simpa [exec, execPush, he, State.push_ok _ hz] using h.symm⟩
    · exact .inr ⟨⟨.invalidRegister, b.toNat⟩, .inl ⟨b, by simp [Instr.regOperands], h8, rfl⟩, by simpa [exec, execPush, he] using h.symm⟩
  | pop b =>
    rcases regIndex_split b with ⟨r, hr, he⟩ | ⟨h8, he⟩
    · rcases sp_below_or_above s with hlt | hge
      · exact .inl ⟨r, hr, hlt, by simpa [exec, execPop, he, State.pop_ok hlt] using h.symm⟩
      · refine .inr ⟨⟨.stackUnderflow, s.sp.toNat⟩, .inr ⟨BitVec.not_lt.2 hge, ?_⟩, ?_⟩
        · exact .inr (.inr (.inr (.inl ⟨.inl ⟨b, rfl⟩, hge, rfl⟩)))
        · simpa [exec, execPop, he, State.pop_underflow hge] using h.symm
    · exact .inr ⟨⟨.invalidRegister, b.toNat⟩, .inl ⟨b, by simp [Instr.regOperands], h8, rfl⟩, by simpa [exec, execPop, he] using h.symm⟩
  | call b =>
    rcases regIndex_split b with ⟨r, hr, he⟩ | ⟨h8, he⟩
    · by_cases hp : s.pc.toNat ≤ 253
      · by_cases hz : s.sp = 0
        · refine .inr ⟨⟨.memoryFault, -1⟩, .inr ⟨fun hc => hc.2 hz, .inr (.inl ⟨b, rfl, hp, rfl⟩)⟩, ?_⟩
          simpa [exec, execCall, he, State.returnAddress_ok hp, State.push_empty _ hz] using h.symm
        · exact .inl ⟨r, hr, hp, hz, by
            simpa [exec, execCall, he, State.returnAddress_ok hp, State.push_ok _ hz] using h.symm⟩
      · have hp' : 253 < s.pc.toNat := by omega
        refine .inr ⟨⟨.memoryFault, ((s.pc.toNat + 2 : Nat) : Int)⟩, .inr ⟨fun hc => hp hc.1, ?_⟩, ?_⟩
        · exact .inr (.inr (.inl ⟨b, rfl, hp', rfl⟩))
        · simpa [exec, execCall, he, State.returnAddress_bad hp'] using h.symm
    · exact .inr ⟨⟨.invalidRegister, b.toNat⟩, .inl ⟨b, by simp [Instr.regOperands], h8, rfl⟩, by simpa [exec, execCall, he] using h.symm⟩
  | ret =>
    rcases sp_below_or_above s with hlt | hge
    · exact .inl ⟨hlt, by simpa [exec, execRet, State.pop_ok hlt] using h.symm⟩
    · refine .inr ⟨⟨.stackUnderflow, s.sp.toNat⟩, .inr ⟨BitVec.not_lt.2 hge, ?_⟩, ?_⟩
      · exact .inr (.inr (.inr (.inl ⟨.inr rfl, hge, rfl⟩)))
      · simpa [exec, execRet, State.pop_underflow hge] using h.symm

/-! ## What a step can do -/

/-- The inversion of the step: it was Running, and either the fetch raised, or the step is the meaning of the instruction
that stands at `pc`. -/
theorem step_cases {s t : State} (h : step s = .next t) :
    (s.fault = none ∧ s.running = true) ∧
    ((∃ e, decode s.cfg s.window = .error e ∧ t = s.takeFault (s.fetchRaised e).cause (s.fetchRaised e).info) ∨
     ∃ i, decode s.cfg s.window = .ok i ∧ exec i s = .next t) := by
  unfold step at h
  split at h
  · cases h
  · cases h
  · rename_i hs
    refine ⟨State.status_running.1 hs, ?_⟩
    rw [State.decode_window]
    unfold State.fetchInstr at h
    cases hd : decodeFrom s.cfg s.fetchByte with
    | ok i =>
      rw [hd] at h
      exact .inr ⟨i, rfl, h⟩
    | error e =>
      rw [hd] at h
      exact .inl ⟨e, rfl, by simpa using h.symm⟩

end Sys2Proof.Machine
end

