-- ==== Sys2Proof/Laws/PerInstr.lean ====
section
/-! SUPPORT. The family EncodeShape: what the encoding of each instruction looks like, one lemma for each constructor. -/

namespace Sys2Proof.Laws.EncodeShape

/-- In every configuration the encoding is 1 to 3 bytes long, as long as the row's format says, begins with the row's
opcode byte and goes on with the register operands in encoding order (R50 to R54). -/
def Statement (i : Instr) : Prop :=
  ∀ c : Config, (encode c i).length = i.length ∧ i.length ≤ 3 ∧ (encode c i).head? = some (c.opcodeOf i.mnemonic) ∧
    i.regOperands <+: (encode c i).tail

theorem hlt : Statement .hlt := fun _ => ⟨rfl, Instr.length_le _, rfl, List.prefix_refl _⟩
theorem ldi (r imm : Byte) : Statement (.ldi r imm) := fun _ => ⟨rfl, Instr.length_le _, rfl, ⟨[imm], rfl⟩⟩
theorem prn (r : Byte) : Statement (.prn r) := fun _ => ⟨rfl, Instr.length_le _, rfl, List.prefix_refl _⟩
theorem mul (a b : Byte) : Statement (.mul a b) := fun _ => ⟨rfl, Instr.length_le _, rfl, List.prefix_refl _⟩
theorem add (a b : Byte) : Statement (.add a b) := fun _ => ⟨rfl, Instr.length_le _, rfl, List.prefix_refl _⟩
theorem push (r : Byte) : Statement (.push r) := fun _ => ⟨rfl, Instr.length_le _, rfl, List.prefix_refl _⟩
theorem pop (r : Byte) : Statement (.pop r) := fun _ => ⟨rfl, Instr.length_le _, rfl, List.prefix_refl _⟩
theorem call (r : Byte) : Statement (.call r) := fun _ => ⟨rfl, Instr.length_le _, rfl, List.prefix_refl _⟩
theorem ret : Statement .ret := fun _ => ⟨rfl, Instr.length_le _, rfl, List.prefix_refl _⟩
theorem nop : Statement .nop := fun _ => ⟨rfl, Instr.length_le _, rfl, List.prefix_refl _⟩
theorem sub (a b : Byte) : Statement (.sub a b) := fun _ => ⟨rfl, Instr.length_le _, rfl, List.prefix_refl _⟩
theorem div (a b : Byte) : Statement (.div a b) := fun _ => ⟨rfl, Instr.length_le _, rfl, List.prefix_refl _⟩

end Sys2Proof.Laws.EncodeShape
end

