-- ==== Sys2Proof/Tests/Slice0.lean ====
section
/-! SUPPORT. The model's own tests. Expected results come from spec/: the tables of 30_encoding.md and the vectors of
95_test_vectors.md (the name of the vector stands in each comment). The last part shows, for every statement that has
hypotheses, a state and operands that meet them. -/

namespace Sys2Proof.Tests

open Sys2Proof.Machine

/-- The next state, if the outcome is one. -/
def nextState : Host.Outcome State Fault Refusal → Option State
  | .next t => some t
  | .fault _ => none
  | .refused _ => none

/-- An outcome that answers a next state with property `P`. -/
theorem exists_next {o : Host.Outcome State Fault Refusal} (P : State → Bool)
    (h : (nextState o).any P = true) : ∃ t, o = .next t ∧ P t = true := by
  cases o with
  | next t => exact ⟨t, rfl, h⟩
  | fault r => simp [nextState] at h
  | refused r => simp [nextState] at h

/-- The reset state with `pc`, one register and some cells set; HAS_SUBDIV is true. -/
def st (pc : PcWord) (r : Fin 8) (v : Byte) (m : Memory) : State :=
  { (State.resetWith Config.default.withSubdiv).setReg r v with pc := pc, mem := m }

/-- The machine with the default parameters. -/
def stBase (pc : PcWord) (m : Memory) : State := { State.reset with pc := pc, mem := m }

/-! ## Decoding: a word of each constructor, written out bit by bit from R56 and R57 -/

theorem test_decode_hlt : decode Config.default [0b00000001] = .ok .hlt := by rfl
theorem test_decode_ldi : decode Config.default [0b10000010, 0b00000000, 0b00001000] = .ok (.ldi 0 8) := by rfl
theorem test_decode_prn : decode Config.default [0b01000111, 0b00000101] = .ok (.prn 5) := by rfl
theorem test_decode_mul : decode Config.default [0b10100010, 0b00000011, 0b00000010] = .ok (.mul 3 2) := by rfl
theorem test_decode_add : decode Config.default [0b10100000, 0b00000000, 0b00000001] = .ok (.add 0 1) := by rfl
theorem test_decode_push : decode Config.default [0b01000101, 0b00000111] = .ok (.push 7) := by rfl
theorem test_decode_pop : decode Config.default [0b01000110, 0b00000001] = .ok (.pop 1) := by rfl
theorem test_decode_call : decode Config.default [0b01010000, 0b00000001] = .ok (.call 1) := by rfl
theorem test_decode_ret : decode Config.default [0b00010001, 0xFF] = .ok .ret := by rfl
theorem test_decode_nop : decode Config.default [0b00000000] = .ok .nop := by rfl
theorem test_decode_sub : decode Config.default.withSubdiv [0b10100001, 0b00000010, 0b00000011] = .ok (.sub 2 3) := by rfl
theorem test_decode_div : decode Config.default.withSubdiv [0b10100011, 0b00000000, 0b00000001] = .ok (.div 0 1) := by rfl

/-- V-ENG-8, V-ENG-9 and V-ENG-10: bytes of no row in force. -/
theorem test_decode_illegal :
    decode Config.default [0xA1, 0, 1] = .error (.invalidOpcode 0xA1) ∧
    decode Config.default [0xA3, 0, 1] = .error (.invalidOpcode 0xA3) ∧
    decode Config.default [0x02] = .error (.invalidOpcode 0x02) := ⟨rfl, rfl, rfl⟩

/-- Bytes that end before the instruction does (R73). -/
theorem test_decode_short :
    decode Config.default [] = .error (.missingByte 0) ∧ decode Config.default [0x47] = .error (.missingByte 1) ∧
    decode Config.default [0x82, 0] = .error (.missingByte 2) := ⟨rfl, rfl, rfl⟩

/-- The host's numbering of a word: the opcode byte is bits 7..0, the operands follow above. -/
theorem test_decodeTableWord :
    decodeTableWord 24 0x080382 = some (.ldi 3 8) ∧ decodeTableWord 8 0xFF01 = some .hlt ∧
    decodeTableWord 24 0x0302A1 = some (.sub 2 3) ∧ decodeTableWord 8 0xFF = none := by decide

/-- R62's table and the source's spelling "LDI R0,8". -/
theorem test_asmText : (Instr.ldi 0 8).asmText = "LDI R0, 8" ∧ (Instr.mul 0 1).asmText = "MUL R0, R1" ∧
    Instr.ret.asmText = "RET" := ⟨rfl, rfl, rfl⟩

/-! ## Well-formedness: an ill-formed term for each check -/

theorem test_illformed_ldi : (Instr.ldi 8 1).wellFormed Config.default = false := by decide
theorem test_illformed_prn : (Instr.prn 9).wellFormed Config.default = false := by decide
theorem test_illformed_mul_first : (Instr.mul 8 0).wellFormed Config.default = false := by decide
theorem test_illformed_add_second : (Instr.add 0 8).wellFormed Config.default = false := by decide
theorem test_illformed_push : (Instr.push 255).wellFormed Config.default = false := by decide
theorem test_illformed_pop : (Instr.pop 9).wellFormed Config.default = false := by decide
theorem test_illformed_call : (Instr.call 8).wellFormed Config.default = false := by decide
theorem test_illformed_sub_not_in_force : (Instr.sub 0 1).wellFormed Config.default = false := by decide
theorem test_illformed_div_not_in_force : (Instr.div 0 1).wellFormed Config.default = false := by decide
theorem test_illformed_sub_operand : (Instr.sub 0 8).wellFormed Config.default.withSubdiv = false := by decide
theorem test_illformed_div_operand : (Instr.div 8 0).wellFormed Config.default.withSubdiv = false := by decide
theorem test_wellformed : (Instr.ldi 7 255).wellFormed Config.default = true ∧
    (Instr.div 7 0).wellFormed Config.default.withSubdiv = true ∧ Instr.hlt.wellFormed Config.default = true := by decide

/-! ## One step on a small state -/

/-- V-ENG-1, V-ENG-2. -/
theorem test_hlt : (nextState (step (stBase 5 [(5, 0x01)]))).map (fun t => (t.pc, t.running)) = some (6, false) ∧
    (nextState (step (stBase 255 [(255, 0x01)]))).map (fun t => (t.pc, t.status)) = some (256, .halted) := by decide

/-- V-ENG-3, V-ENG-4. -/
theorem test_nop : nextState (step (stBase 9 [])) = some (stBase 10 []) ∧
    nextState (step (stBase 255 [])) = some (stBase 256 []) := by decide

/-- V-ENG-5, V-ENG-6, V-ENG-7. -/
theorem test_fetch_faults :
    nextState (step (stBase 256 [])) = some { stBase 256 [] with fault := some ⟨.memoryFault, 256, 256⟩ } ∧
    (nextState (step (stBase 0 [(0, 0xFF)]))).map (·.fault) = some (some ⟨.invalidOpcode, 0xFF, 0⟩) ∧
    (nextState (step (stBase 255 [(255, 0xFF)]))).map (·.fault) = some (some ⟨.invalidOpcode, 0xFF, 255⟩) := by decide

/-- V-LDI-1, V-LDI-8 (MemoryFault(256) at 254), V-LDI-4. -/
theorem test_ldi : (nextState (step (stBase 0 [(0, 0x82), (2, 8)]))).map (fun t => (t.reg 0, t.pc)) = some (8, 3) ∧
    (nextState (step (stBase 254 [(254, 0x82)]))).map (·.fault) = some (some ⟨.memoryFault, 256, 254⟩) ∧
    (nextState (step (stBase 0 [(0, 0x82), (1, 7), (2, 0x80)]))).map (·.sp) = some 0x80 := by decide

/-- V-PRN-1, V-PRN-5. -/
theorem test_prn : (nextState (exec (.prn 0) (st 3 0 8 []))).map (fun t => (t.out, t.pc)) = some ([8], 5) ∧
    (nextState (exec (.prn 9) (st 0 0 8 []))).map (fun t => (t.out, t.fault)) =
      some ([], some ⟨.invalidRegister, 9, 0⟩) := by decide

/-- V-ADD-6, V-ADD-8. -/
theorem test_add : (nextState (exec (.add 7 0) (st 6 0 0x10 []))).map (fun t => (t.reg 7, t.pc)) = some (0x04, 9) ∧
    (nextState (exec (.add 9 8) (st 6 0 0 []))).map (·.fault) = some (some ⟨.invalidRegister, 9, 6⟩) := by decide

/-- V-MUL-2 (200 * 2 = 144, the source's example), V-MUL-5. -/
theorem test_mul : (nextState (exec (.mul 0 1) ((st 6 0 200 []).setReg 1 2))).map (·.reg 0) = some 144 ∧
    (nextState (exec (.mul 3 3) (st 6 3 17 []))).map (·.reg 3) = some 33 := by decide

/-- V-SUB-2, V-SUB-4. -/
theorem test_sub : (nextState (exec (.sub 2 3) ((st 0 2 5 []).setReg 3 10))).map (·.reg 2) = some 251 ∧
    (nextState (exec (.sub 2 2) (st 0 2 77 []))).map (·.reg 2) = some 0 := by decide

/-- V-DIV-10 (unsigned), V-DIV-6. -/
theorem test_div : (nextState (exec (.div 0 1) ((st 0 0 255 []).setReg 1 2))).map (·.reg 0) = some 127 ∧
    nextState (exec (.div 1 1) (st 14 0 66 [])) =
      some { st 14 0 66 [] with fault := some ⟨.divisionByZero, 1, 14⟩ } := by decide

/-- V-ALU-1. -/
theorem test_alu_unsupported : ((st 0 0 9 []).aluApply (.other 5) 0 1).toOption = none ∧
    faultCode ((st 0 0 9 []).takeFault .unsupportedOperation 5).fault = 4 := by decide

/-- V-PUSH-2 (PUSH R7 pushes the old stack pointer), V-PUSH-3. -/
theorem test_push : (nextState (exec (.push 7) (stBase 3 []))).map (fun t => (t.mem, t.sp, t.pc)) =
      some ([(0xF3, 0xF4)], 0xF3, 5) ∧
    nextState (exec (.push 0) (st 0 7 0 [])) = some { st 0 7 0 [] with fault := some ⟨.memoryFault, -1, 0⟩ } := by decide

/-- V-POP-4 (POP R7 keeps the popped byte), V-POP-2. -/
theorem test_pop : (nextState (exec (.pop 7) (st 5 7 0xF3 [(0xF3, 0x50)]))).map (fun t => (t.sp, t.pc)) =
      some (0x50, 7) ∧
    (nextState (exec (.pop 0) (stBase 0 []))).map (·.fault) = some (some ⟨.stackUnderflow, 0xF4, 0⟩) := by decide

/-- V-CALL-6 (CALL R7 reads the register after the push), V-CALL-3. -/
theorem test_call : (nextState (exec (.call 7) (stBase 0 []))).map (fun t => (t.mem, t.sp, t.pc)) =
      some ([(0xF3, 0x02)], 0xF3, 0xF3) ∧
    (nextState (exec (.call 0) (stBase 254 []))).map (fun t => (t.fault, t.mem)) =
      some (some ⟨.memoryFault, 256, 254⟩, []) := by decide

/-- V-RET-3, V-RET-4. -/
theorem test_ret : (nextState (step (st 255 7 0xF3 [(255, 0x11)]))).map (fun t => (t.pc, t.sp)) = some (0, 0xF4) ∧
    (nextState (exec .ret (st 0 7 0xF8 []))).map (·.fault) = some (some ⟨.stackUnderflow, 0xF8, 0⟩) := by decide

/-- V-ENG-11: Halted and Faulted have no step. -/
theorem test_terminal : nextState (step (stBase 0 []).clearRunning) = none ∧
    nextState (step ((stBase 0 []).takeFault .stackUnderflow 0xF4)) = none := by decide

/-- V-RST-1 and V-RST-2, on a short image. -/
theorem test_reset_and_boot : State.reset.x = #v[0, 0, 0, 0, 0, 0, 0, 0xF4] ∧ State.reset.status = .running ∧
    (State.boot Config.default [0x47, 0, 0x01]).map (·.mem) = some [(0, 0x47), (2, 0x01)] := by decide

/-- R92: "8" and a line end, "0", "244". -/
theorem test_render : renderLine 8 = [0x38, 0x0A] ∧ renderLine 0 = [0x30, 0x0A] ∧
    renderLine 244 = [0x32, 0x34, 0x34, 0x0A] := by decide

/-- The host's placement of a word: a base row runs in the default machine, an optional row switches its option on. -/
theorem test_withFetchWord :
    (nextState (step (State.reset.withFetchWord 24 0x080082))).map (·.reg 0) = some 8 ∧
    (State.reset.withFetchWord 24 0x080082).cfg = Config.default ∧
    (nextState (step (State.reset.withFetchWord 24 0x0100A1))).map (fun t => (t.pc, t.fault)) = some (3, none) := by decide

/-! ## Hypotheses are met: one theorem for each statement that has any -/

theorem witness_DecodeOfEncodeIsTheInstruction : Config.default.withSubdiv.wf ∧
    (Instr.div 7 255).inForce Config.default.withSubdiv = true ∧ Config.default.wf ∧
    (Instr.ldi 255 255).inForce Config.default = true := by decide

theorem witness_DecodedBytesAreTheEncoding : decode Config.default [0x82, 7, 255, 1] = .ok (.ldi 7 255) := by rfl

theorem witness_OpcodeBytesOfNoRowAreRejected : Config.default.wf ∧
    (∀ m ∈ Config.default.mnemonics, Config.default.opcodeOf m ≠ 0xFF) ∧
    ∀ m ∈ Config.default.mnemonics, Config.default.opcodeOf m ≠ 0xA1 := by decide

theorem witness_OptionalRowsAreDecodedOnlyWithSubdiv :
    (Config.default.withSubdiv.hasSubdiv = true ∧ Config.default.withSubdiv.wf) ∧ Config.default.hasSubdiv = false ∧
    (∀ m ∈ Config.default.mnemonics, Config.default.opcodeOf m ≠ Config.default.opcSub) ∧
    ∀ m ∈ Config.default.mnemonics, Config.default.opcodeOf m ≠ Config.default.opcDiv := by decide

theorem witness_DecodingReadsOnlyBytesAndTable :
    (st 0 1 9 [(0, 0x47), (9, 1)]).cfg.table = (st 0 2 5 [(0, 0x47)]).cfg.table ∧
    (st 0 1 9 [(0, 0x47), (9, 1)]).pc = (st 0 2 5 [(0, 0x47)]).pc ∧
    (∀ k, k ≤ 2 → (st 0 1 9 [(0, 0x47), (9, 1)]).mem.read (0 + k) = (st 0 2 5 [(0, 0x47)]).mem.read (0 + k)) ∧
    st 0 1 9 [(0, 0x47), (9, 1)] ≠ st 0 2 5 [(0, 0x47)] ∧
    (decode Config.default [0x47, 1]).toOption = some (.prn 1) := by decide

theorem witness_BootPlacesTheImage : (List.replicate 256 (1 : Byte)).length ≤ 256 ∧
    255 < (List.replicate 256 (1 : Byte)).length ∧ ([7] : List Byte).length ≤ 255 ∧
    256 < (List.replicate 257 (1 : Byte)).length := by
  rw [List.length_replicate, List.length_replicate]
  decide

theorem witness_ResetMeetsTheInvariant : Config.default.wf ∧ Config.default.withSubdiv.wf := by decide

/-- A state a run can reach that is not reset. -/
def invState : State := st 3 7 0xF3 [(3, 0x45), (0xF3, 7)]

theorem witness_StepKeepsTheInvariant : invState.Inv ∧ ∃ t, step invState = .next t :=
  ⟨⟨by decide, by decide, by decide, nofun⟩,
    let ⟨t, h, _⟩ := exists_next (o := step invState) (fun _ => true) (by decide)
    ⟨t, h⟩⟩

theorem witness_StepRunsTheDecodedInstruction : (stBase 255 [(255, 0x01)]).status = .running ∧
    decode (stBase 255 [(255, 0x01)]).cfg (stBase 255 [(255, 0x01)]).window = .ok .hlt := ⟨rfl, rfl⟩

theorem witness_RunningAlwaysStepsAndTerminalNever : (stBase 0 []).status = .running ∧
    (stBase 0 []).clearRunning.status = .halted ∧ ((stBase 0 []).takeFault .memoryFault 256).status = .faulted := by decide

theorem witness_StatusFollowsItsTable : ((stBase 0 []).fault = none ∧ (stBase 0 []).running = true) ∧
    ((stBase 0 []).clearRunning.fault = none ∧ (stBase 0 []).clearRunning.running = false) ∧
    (((stBase 0 []).takeFault .memoryFault 256).fault ≠ none ∧
      ((stBase 0 []).takeFault .memoryFault 256).running = true) ∧
    (((stBase 0 []).clearRunning.takeFault .memoryFault 256).fault ≠ none ∧
      ((stBase 0 []).clearRunning.takeFault .memoryFault 256).running = false) := by decide

theorem witness_LoopGateAfterAStep :
    (∃ t, step (stBase 255 [(255, 0x01)]) = .next t ∧ decide (t.fault = none ∧ t.running = false) = true) ∧
    (∃ t, step (stBase 255 []) = .next t ∧ decide (t.fault = none ∧ t.running = true) = true) ∧
    (∃ t, step (stBase 256 []) = .next t ∧ decide (t.fault ≠ none) = true) ∧
    (∃ t, step (stBase 0 []) = .next t ∧ decide (t.current = some .nop) = true) :=
  ⟨exists_next _ (by decide), exists_next _ (by decide), exists_next _ (by decide), exists_next _ (by decide)⟩

theorem witness_FetchAbove255TakesMemoryFault : ((stBase 256 []).status = .running ∧ 255 < (stBase 256 []).pc.toNat) ∧
    255 < (stBase 258 []).pc.toNat ∧ (stBase 255 []).pc.toNat ≤ 255 := by decide

theorem witness_UnlistedOpcodeTakesInvalidOpcode :
    (stBase 255 [(255, 0xFF)]).status = .running ∧ (stBase 255 [(255, 0xFF)]).pc.toNat ≤ 255 ∧
    ∀ m ∈ (stBase 255 [(255, 0xFF)]).cfg.mnemonics,
      (stBase 255 [(255, 0xFF)]).cfg.opcodeOf m ≠ (stBase 255 [(255, 0xFF)]).mem.read 255 := by decide

theorem witness_OperandBeyondMemoryTakesMemoryFault :
    ((stBase 254 [(254, 0x82)]).status = .running ∧ Config.default.wf ∧ .ldi ∈ Config.default.mnemonics ∧
      (stBase 254 [(254, 0x82)]).mem.read 254 = Config.default.opcodeOf .ldi ∧
      255 < (stBase 254 []).pc.toNat + Mnemonic.ldi.format.operandCount) ∧
    (stBase 255 [(255, 0x47)]).mem.read 255 = Config.default.opcodeOf .prn ∧
    255 < (stBase 255 []).pc.toNat + Mnemonic.prn.format.operandCount := by decide

theorem witness_BadRegisterOperandTakesInvalidRegister :
    (Instr.mul 9 8).regOperands.find? (fun b => decide (8 ≤ b.toNat)) = some 9 ∧
    (Instr.mul 7 8).regOperands.find? (fun b => decide (8 ≤ b.toNat)) = some 8 ∧
    (Instr.pop 255).regOperands.find? (fun b => decide (8 ≤ b.toNat)) = some 255 := by decide

theorem witness_FaultingStepsArePrecise :
    ∃ t, step (stBase 0 [(0, 0x46)]) = .next t ∧ decide (t.fault ≠ none) = true := exists_next _ (by decide)

theorem witness_InstructionsFaultExactlyAsTheTableSays : (stBase 0 []).fault = none ∧
    (∃ t, exec (.pop 0) (stBase 0 []) = .next t ∧ decide (t.fault ≠ none) = true) ∧
    ∃ t, exec (.pop 0) (st 0 7 0xF3 []) = .next t ∧ decide (t.fault = none) = true :=
  ⟨rfl, exists_next _ (by decide), exists_next _ (by decide)⟩

theorem witness_OnlyHltClearsRunning :
    (∃ t, step (stBase 0 [(0, 0x01)]) = .next t ∧ decide (t.running = false) = true) ∧
    ∃ t, step (stBase 0 [(0, 0xFF)]) = .next t ∧ decide (t.fault ≠ none) = true :=
  ⟨exists_next _ (by decide), exists_next _ (by decide)⟩

theorem witness_OnlyPrnAppendsToTheOutput :
    (∃ t, step (stBase 0 []) = .next t ∧ decide (t.out = []) = true) ∧
    ∃ t, step (stBase 0 [(0, 0x47), (1, 7)]) = .next t ∧ decide (t.out = [0xF4]) = true :=
  ⟨exists_next _ (by decide), exists_next _ (by decide)⟩

theorem witness_OnlyPushAndCallStore : (stBase 0 [(0, 0x45), (1, 7)]).mem.wf ∧
    ∃ t, step (stBase 0 [(0, 0x45), (1, 7)]) = .next t ∧ decide (t.mem ≠ [(0, 0x45), (1, 7)]) = true :=
  ⟨by decide, exists_next _ (by decide)⟩

theorem witness_RegisterWritesFollowTheTable :
    (∃ t, exec (.ldi 1 5) (stBase 0 []) = .next t ∧ true = true) ∧ (2 : Fin 8).val ∉ writesOf (.ldi 1 5) :=
  ⟨exists_next _ (by decide), by decide⟩

theorem witness_RegisterReadsFollowTheTable :
    (st 0 1 9 []).fault = none ∧ (st 0 1 4 []).pc = (st 0 1 9 []).pc ∧ (st 0 1 4 []).mem = (st 0 1 9 []).mem ∧
    (st 0 1 4 []).running = (st 0 1 9 []).running ∧ (st 0 1 4 []).fault = (st 0 1 9 []).fault ∧
    (st 0 1 4 []).out = (st 0 1 9 []).out ∧ (st 0 1 4 []).cfg = (st 0 1 9 []).cfg ∧
    (∀ j : Fin 8, j.val ∈ readsOf (.push 0) → (st 0 1 4 []).reg j = (st 0 1 9 []).reg j) ∧
    (st 0 1 4 []).reg 1 ≠ (st 0 1 9 []).reg 1 ∧
    (∃ t, exec (.push 0) (st 0 1 9 []) = .next t ∧ decide (t.fault = none) = true) ∧
    ∃ t, exec (.push 0) (st 0 1 4 []) = .next t ∧ decide (t.fault = none) = true :=
  ⟨rfl, rfl, rfl, rfl, rfl, rfl, rfl, by decide, by decide, exists_next _ (by decide), exists_next _ (by decide)⟩

theorem witness_StepIgnoresTheOutputHistory :
    ∃ t, step { stBase 0 [(0, 0x47), (1, 7)] with out := [1] } = .next t ∧ decide (t.out = [1, 0xF4]) = true :=
  exists_next _ (by decide)

theorem witness_TheOpcodeTableNeverChanges : ∃ t, step (stBase 0 [(0, 0x45)]) = .next t ∧ true = true :=
  exists_next _ (by decide)

theorem witness_PcAdvancesByTheInstructionLength :
    (∃ t, step (stBase 253 [(253, 0x82)]) = .next t ∧ decide (t.fault = none) = true) ∧
    (stBase 253 [(253, 0x82)]).current = some (.ldi 0 0) ∧
    (∃ t, step (stBase 0 [(0, 0x50)]) = .next t ∧ decide (t.fault = none) = true) ∧
    (stBase 0 [(0, 0x50)]).current = some (.call 0) :=
  ⟨exists_next _ (by decide), by decide, exists_next _ (by decide), by decide⟩

theorem witness_TerminalStatesAreFinal : (State.run 1 (stBase 0 [(0, 0x01)])).status ≠ .running ∧
    (State.run 0 ((stBase 0 []).takeFault .memoryFault 256)).status ≠ .running := by decide

theorem witness_RunningOffTheEndOfMemoryFaults :
    ((stBase 253 [(0, 0x45)]).status = .running ∧ Config.default.lookup 0 = some .nop ∧
      (stBase 253 [(0, 0x45)]).pc.toNat ≤ 256 ∧
      ∀ a, 253 ≤ a → a ≤ 255 → (stBase 253 [(0, 0x45)]).mem.read a = 0) ∧
    (stBase 256 []).pc.toNat ≤ 256 := by
  refine ⟨⟨by decide, by decide, by decide, fun a h1 h2 => ?_⟩, by decide⟩
  interval_cases a <;> rfl

theorem witness_MemReadInAndOutOfRange : (255 ≤ 255 ∧ 255 < 256) ∧ (st 0 7 0xF3 []).pop.toOption ≠ none := by decide

theorem witness_MemWriteInAndOutOfRange : (st 0 7 0 [(0, 1), (255, 2)]).mem.wf ∧ (255 ≤ 255 ∧ 255 < 256) := by decide

theorem witness_AStoreIsSeenByTheNextFetch : (stBase 0 [(9, 1)]).mem.wf ∧ ((stBase 0 [(9, 1)]).push 5).toOption ≠ none := by
  decide

theorem witness_OutputLinesAreDecimalNumerals : 1 < (numeral 10).length ∧ (numeral 9).length = 1 := by decide

/-- For LdiLoadsTheImmediate, PrnEmitsTheRegister, AddWritesTheSumModulo256, MulWritesTheProductModulo256 and
SubWritesTheDifferenceModulo256: operand bytes that name registers, both ends of the range. -/
theorem witness_LdiPrnAddMulSub : NamesReg 0 0 ∧ NamesReg 7 7 := ⟨rfl, rfl⟩

/-- For HltHaltsAndAdvances and NopOnlyAdvances. -/
theorem witness_HltAndNop : (stBase 255 []).pc.toNat ≤ 255 ∧ (stBase 255 []).fault = none := by decide

theorem witness_DivWritesTheUnsignedQuotient : NamesReg 0 0 ∧ NamesReg 7 7 ∧ (stBase 0 []).reg 7 ≠ 0 :=
  ⟨rfl, rfl, by decide⟩

theorem witness_DivByZeroTakesDivisionByZero : NamesReg 7 7 ∧ NamesReg 0 0 ∧ (stBase 0 []).reg 0 = 0 := ⟨rfl, rfl, rfl⟩

theorem witness_AluAddSubMulAreModulo256 : ((stBase 0 []).reg 0).toNat < ((stBase 0 []).reg 7).toNat ∧
    Config.default.hasSubdiv = false := by decide

theorem witness_AluDivAndUnsupportedSelectors : (stBase 0 []).reg 0 = 0 ∧ (stBase 0 []).reg 7 ≠ 0 := by decide

theorem witness_PushPrimitiveDecrementsThenWrites : (st 0 7 0 []).mem.wf ∧ (st 0 7 0 []).sp = 0 ∧
    (st 0 7 1 [(0, 9)]).mem.wf ∧ (st 0 7 1 [(0, 9)]).sp ≠ 0 ∧ (st 0 7 0xFF []).sp ≠ 0 := by decide

theorem witness_PopPrimitiveReadsThenIncrements : 0xF4 ≤ (st 0 7 0xF4 []).sp.toNat ∧ 0xF4 ≤ (st 0 7 0xFF []).sp.toNat ∧
    (st 0 7 0xF3 []).sp.toNat < 0xF4 ∧ (st 0 7 0 []).sp.toNat < 0xF4 := by decide

theorem witness_PushStoresTheRegister : NamesReg 7 7 ∧ (st 0 7 1 [(0, 9)]).mem.wf ∧ (st 0 7 1 [(0, 9)]).sp ≠ 0 :=
  ⟨rfl, by decide, by decide⟩

theorem witness_PushAtZeroTakesMemoryFault : NamesReg 7 7 ∧ (st 0 7 0 []).sp = 0 := ⟨rfl, rfl⟩

theorem witness_PopLoadsTheRegister : NamesReg 7 7 ∧ NamesReg 0 0 ∧ (0 : Fin 8) ≠ 7 ∧ (st 0 7 0xF3 []).sp.toNat < 0xF4 :=
  ⟨rfl, rfl, by decide, by decide⟩

theorem witness_PopAndRetUnderflow : 0xF4 ≤ (st 0 7 0xF4 []).sp.toNat ∧ NamesReg 7 7 := ⟨by decide, rfl⟩

theorem witness_CallPushesTheReturnAddressAndJumps : NamesReg 7 7 ∧ (st 253 7 1 []).mem.wf ∧ (st 253 7 1 []).sp ≠ 0 ∧
    (st 253 7 1 []).pc.toNat ≤ 253 := ⟨rfl, by decide, by decide, by decide⟩

theorem witness_CallFaults : NamesReg 7 7 ∧ 254 ≤ (st 254 7 1 []).pc.toNat ∧ (st 253 7 0 []).pc.toNat ≤ 253 ∧
    (st 253 7 0 []).sp = 0 := ⟨rfl, by decide, by decide, by decide⟩

theorem witness_RetPopsIntoPc : (st 0 7 0xF3 []).sp.toNat < 0xF4 ∧ (st 0 7 0 []).sp.toNat < 0xF4 := by decide

theorem witness_PushThenPopMovesTheValue : NamesReg 7 7 ∧ NamesReg 0 0 ∧ (0 : Fin 8) ≠ 7 ∧ (st 0 7 0xF4 []).mem.wf ∧
    (st 0 7 0xF4 []).sp ≠ 0 ∧ (st 0 7 0xF4 []).sp.toNat ≤ 0xF4 ∧ (st 0 7 1 []).sp ≠ 0 :=
  ⟨rfl, rfl, by decide, by decide, by decide, by decide, by decide⟩

theorem witness_PushesThenPopsRestoreTheStackPointer : ([7, 0] : List Byte).length = ([1, 2] : List Byte).length ∧
    (∀ b ∈ ([7, 0] : List Byte), b.toNat < 8) ∧ (∀ b ∈ ([1, 2] : List Byte), b.toNat < 7) ∧
    (st 0 7 2 []).mem.wf ∧ ([7, 0] : List Byte).length ≤ (st 0 7 2 []).sp.toNat ∧ (st 0 7 2 []).sp.toNat ≤ 0xF4 ∧
    ([1, 2] : List Byte).Nodup ∧ ([1, 2] : List Byte)[1]? = some 2 ∧ ([7, 0] : List Byte)[2 - 1 - 1]? = some 7 ∧
    NamesReg 7 7 ∧ NamesReg 2 2 :=
  ⟨rfl, by decide, by decide, by decide, by decide, by decide, by decide, rfl, rfl, rfl, rfl⟩

/-- CALL R1 at 253 with R1 = 0 and RET at 0. -/
def callState : State := st 253 7 0xF4 [(0, 0x11), (253, 0x50), (254, 1)]

theorem witness_CallThenRetReturns : callState.status = .running ∧ callState.mem.wf ∧ callState.cfg.wf ∧
    callState.current = some (.call 1) ∧ NamesReg 1 1 ∧ (1 : Fin 8) ≠ 7 ∧ callState.pc.toNat ≤ 253 ∧ callState.sp ≠ 0 ∧
    callState.sp.toNat ≤ 0xF4 ∧ callState.mem.read (callState.reg 1).toNat = callState.cfg.opcodeOf .ret ∧
    callState.pushAddr ≠ (callState.reg 1).toNat :=
  ⟨by decide, by decide, by decide, by decide, rfl, by decide, by decide, by decide, by decide, by decide, by decide⟩

theorem witness_PushesThenPopsEndingInR7 : ([7, 0] : List Byte).length = ([1] : List Byte).length + 1 ∧
    (∀ b ∈ ([7, 0] : List Byte), b.toNat < 8) ∧ (∀ b ∈ ([1] : List Byte), b.toNat < 7) ∧
    (st 0 7 2 []).mem.wf ∧ ([7, 0] : List Byte).length ≤ (st 0 7 2 []).sp.toNat ∧ (st 0 7 2 []).sp.toNat ≤ 0xF4 ∧
    ([7, 0] : List Byte)[0]? = some 7 ∧ NamesReg 7 7 ∧ (2 : Fin 8) ≠ 7 ∧ (∀ b ∈ ([1] : List Byte), ¬ NamesReg b 2) ∧
    ([1] : List Byte).Nodup ∧ ([1] : List Byte)[0]? = some 1 ∧ ([7, 0] : List Byte)[2 - 1 - 0]? = some 0 ∧
    NamesReg 0 0 ∧ NamesReg 1 1 :=
  ⟨rfl, by decide, by decide, by decide, by decide, by decide, rfl, rfl, by decide, by simp [NamesReg], by decide, rfl,
    rfl, rfl, rfl⟩

end Sys2Proof.Tests
end

section
/-! PROOFS. The machine's state (10_state.md): its invariant, which instruction changes which field, and what an
instruction depends on. First what a fetch, an effect and a step do, each said once; then the statements. -/

namespace Sys2Proof.Machine

/-! ## The fetch -/

theorem Mnemonic.length_build (m : Mnemonic) (b1 b2 : Byte) : (m.build b1 b2).length = 1 + m.format.operandCount := by
  cases m <;> rfl

/-- A successful decode read every byte of the instruction (R73). -/
theorem decodeFrom_ok_reads {c : Config} {read : Nat → Option Byte} {i : Instr} (h : decodeFrom c read = .ok i) {k : Nat}
    (hk : k < i.length) : read k ≠ none := by
  have hle := i.length_le
  unfold decodeFrom at h
  split at h
  · cases h
  split at h
  · cases h
  split at h
  · rename_i hcount
    cases h
    rw [Mnemonic.length_build, hcount] at hk
    obtain rfl : k = 0 := by omega
    simp_all
  · rename_i hcount
    split at h
    · cases h
    cases h
    rw [Mnemonic.length_build, hcount] at hk
    obtain rfl | rfl : k = 0 ∨ k = 1 := by omega
    all_goals simp_all
  · split at h
    · cases h
    split at h
    · cases h
    obtain rfl | rfl | rfl : k = 0 ∨ k = 1 ∨ k = 2 := by omega
    all_goals simp_all

/-- A decode fails on the opcode byte, or at the first byte that does not exist. -/
theorem decodeFrom_error {c : Config} {read : Nat → Option Byte} {e : DecodeError} (h : decodeFrom c read = .error e) :
    (∃ op, e = .invalidOpcode op) ∨ ∃ k, e = .missingByte k ∧ read k = none ∧ (k = 0 ∨ read (k - 1) ≠ none) := by
  unfold decodeFrom at h
  split at h
  · cases h
    exact .inr ⟨0, rfl, ‹_›, .inl rfl⟩
  split at h
  · cases h
    exact .inl ⟨_, rfl⟩
  split at h
  · cases h
  · split at h
    · cases h
      exact .inr ⟨1, rfl, ‹_›, .inr (by simp_all)⟩
    · cases h
  · split at h
    · cases h
      exact .inr ⟨1, rfl, ‹_›, .inr (by simp_all)⟩
    split at h
    · cases h
      exact .inr ⟨2, rfl, ‹_›, .inr (by simp_all)⟩
    · cases h

theorem State.fetchByte_eq_none {s : State} {k : Nat} : s.fetchByte k = none ↔ memSize ≤ s.pc.toNat + k := by
  rw [State.fetchByte_eq]
  split <;> simp <;> omega

/-- A fetched instruction ends inside memory. -/
theorem State.fetched_within_memory {s : State} {i : Instr} (h : decode s.cfg s.window = .ok i) :
    s.pc.toNat + i.length ≤ memSize := by
  rw [State.decode_window] at h
  have hlast : s.fetchByte (i.length - 1) ≠ none := decodeFrom_ok_reads h (by simp [Instr.length])
  rw [Ne, State.fetchByte_eq_none] at hlast
  omega

/-- The record of a failed fetch is one that R157 allows: past the first byte, the missing address is 256. -/
theorem State.fetchRaised_legal {s : State} (hpc : s.pc.toNat ≤ 258) {e : DecodeError}
    (h : decode s.cfg s.window = .error e) :
    FaultRecord.legal ⟨(s.fetchRaised e).cause, (s.fetchRaised e).info, s.pc⟩ := by
  rw [State.decode_window] at h
  rcases decodeFrom_error h with ⟨op, rfl⟩ | ⟨k, rfl, hk, hbelow⟩
  · have := op.isLt
    simp only [FaultRecord.legal, State.fetchRaised]
    omega
  · rw [Ne, State.fetchByte_eq_none] at hbelow
    rw [State.fetchByte_eq_none] at hk
    simp only [memSize] at hk hbelow
    simp only [FaultRecord.legal, State.fetchRaised]
    omega

/-! ## What an effect leaves -/

/-- The frame of an instruction's effect: what it leaves of each field. -/
structure Frame (s t : State) (i : Instr) : Prop where
  cfg : t.cfg = s.cfg
  fault : t.fault = s.fault
  running : i ≠ .hlt → t.running = s.running
  out : t.out = s.out ∨ ∃ b r, i = .prn b ∧ NamesReg b r ∧ t.out = s.out ++ [s.reg r]
  mem : t.mem = s.mem ∨ ∃ v, t.mem = (s.pushed v).mem
  pc : t.pc = s.pc + BitVec.ofNat 9 i.length ∨ t.pc.toNat ≤ 255
  reg : ∀ j : Fin 8, j.val ∉ writesOf i → t.reg j = s.reg j

theorem NamesReg.ne_of_val_ne {b : Byte} {r j : Fin 8} (h : NamesReg b r) (hj : j.val ≠ b.toNat) : j ≠ r :=
  fun e => hj (by rw [e, h])

theorem State.pushed_reg_ne {s : State} (v : Byte) {j : Fin 8} (h : j ≠ 7) : (s.pushed v).reg j = s.reg j := by
  rw [State.pushed_reg, if_neg h]

theorem State.popped_reg_ne {s : State} {j : Fin 8} (h : j ≠ 7) : s.popped.reg j = s.reg j := by
  rw [State.popped_reg, if_neg h]

/-- The frame of the instructions that write one register and go on with the next: LDI and the four of the ALU. -/
theorem Frame.of_setReg {s : State} {i : Instr} {b v : Byte} {r : Fin 8} (hr : NamesReg b r)
    (hw : writesOf i = [b.toNat]) (hl : i.length = 3) : Frame s ((s.setReg r v).advance 3) i where
  cfg := rfl
  fault := rfl
  running _ := rfl
  out := .inl rfl
  mem := .inl rfl
  pc := .inl (by rw [hl]; rfl)
  reg j hj := State.reg_setReg_ne s (hr.ne_of_val_ne (by simpa [hw] using hj)) v

theorem ne_seven_of_val_ne {j : Fin 8} (h : j.val ≠ 7) : j ≠ 7 := fun e => h (by rw [e]; rfl)

theorem zext9_toNat_le (v : Byte) : (zext9 v).toNat ≤ 255 := by
  rw [zext9_toNat]
  have := v.isLt
  omega

theorem Effect.frame {s t : State} {i : Instr} (h : Effect s t i) : Frame s t i := by
  cases i with
  | hlt =>
    obtain rfl := h
    exact ⟨rfl, rfl, fun hi => absurd rfl hi, .inl rfl, .inl rfl, .inl rfl, fun _ _ => rfl⟩
  | nop =>
    obtain rfl := h
    exact ⟨rfl, rfl, fun _ => rfl, .inl rfl, .inl rfl, .inl rfl, fun _ _ => rfl⟩
  | prn b =>
    obtain ⟨r, hr, rfl⟩ := h
    exact ⟨rfl, rfl, fun _ => rfl, .inr ⟨b, r, rfl, hr, rfl⟩, .inl rfl, .inl rfl, fun _ _ => rfl⟩
  | ldi b imm =>
    obtain ⟨r, hr, rfl⟩ := h
    exact .of_setReg hr rfl rfl
  | mul p q =>
    obtain ⟨a, b, ha, -, rfl⟩ := h
    exact .of_setReg ha rfl rfl
  | add p q =>
    obtain ⟨a, b, ha, -, rfl⟩ := h
    exact .of_setReg ha rfl rfl
  | sub p q =>
    obtain ⟨a, b, ha, -, rfl⟩ := h
    exact .of_setReg ha rfl rfl
  | div p q =>
    obtain ⟨a, b, ha, -, -, rfl⟩ := h
    exact .of_setReg ha rfl rfl
  | push b =>
    obtain ⟨r, -, -, rfl⟩ := h
    exact ⟨rfl, rfl, fun _ => rfl, .inl rfl, .inr ⟨_, rfl⟩, .inl rfl, fun j hj =>
      State.pushed_reg_ne (s.reg r) (ne_seven_of_val_ne (by simpa [writesOf] using hj))⟩
  | call b =>
    obtain ⟨r, -, -, -, rfl⟩ := h
    exact ⟨rfl, rfl, fun _ => rfl, .inl rfl, .inr ⟨_, rfl⟩, .inr (zext9_toNat_le _), fun j hj =>
      State.pushed_reg_ne (BitVec.ofNat 8 (s.pc.toNat + 2)) (ne_seven_of_val_ne (by simpa [writesOf] using hj))⟩
  | ret =>
    obtain ⟨-, rfl⟩ := h
    exact ⟨rfl, rfl, fun _ => rfl, .inl rfl, .inl rfl, .inr (zext9_toNat_le _), fun j hj =>
      State.popped_reg_ne (ne_seven_of_val_ne (by simpa [writesOf] using hj))⟩
  | pop b =>
    obtain ⟨r, hr, -, rfl⟩ := h
    refine ⟨rfl, rfl, fun _ => rfl, .inl rfl, .inl rfl, .inl rfl, fun j hj => ?_⟩
    obtain ⟨h7, hb⟩ : j.val ≠ 7 ∧ j.val ≠ b.toNat := by simpa [writesOf] using hj
    exact (State.reg_setReg_ne _ (hr.ne_of_val_ne hb) _).trans (State.popped_reg_ne (ne_seven_of_val_ne h7))

theorem Effect.running_of_hlt {s t : State} (h : Effect s t .hlt) : t.running = false := by
  obtain rfl := h
  rfl

theorem Raises.ne_hlt {s : State} {r : Raised} {i : Instr} (h : Raises s r i) : i ≠ .hlt := by
  rintro rfl
  simp [Raises, Instr.regOperands, ownChecksPass] at h

/-- The record of a fetched instruction that raised is one that R157 allows: a CALL that has no room for its return
address stands at 254, so the address is 256. -/
theorem Raises.legal {s : State} {r : Raised} {i : Instr} (h : Raises s r i) (hpc : s.pc.toNat + i.length ≤ memSize) :
    FaultRecord.legal ⟨r.cause, r.info, s.pc⟩ := by
  rcases h with ⟨b, -, h8, rfl⟩ | ⟨-, h⟩
  · have := b.isLt
    simp only [FaultRecord.legal]
    omega
  rcases h with ⟨b, rfl, rfl⟩ | ⟨b, rfl, -, rfl⟩ | ⟨b, rfl, h253, rfl⟩ | ⟨-, hsp, rfl⟩ | ⟨p, q, b, rfl, -, -, rfl⟩
  · exact .inl rfl
  · exact .inl rfl
  · have hlen : (Instr.call b).length = 2 := rfl
    rw [hlen, memSize] at hpc
    simp only [FaultRecord.legal]
    omega
  · have hlow : 0xF4 ≤ s.sp.toNat := BitVec.le_def.1 hsp
    have := s.sp.isLt
    simp only [FaultRecord.legal]
    omega
  · have := b.isLt
    simp only [FaultRecord.legal]
    omega

/-! ## What a step does -/

theorem exec_cfg {i : Instr} {s t : State} (h : exec i s = .next t) : t.cfg = s.cfg := by
  rcases exec_cases h with he | ⟨r, -, rfl⟩
  · exact he.frame.cfg
  · rfl

theorem step_cfg {s t : State} (h : step s = .next t) : t.cfg = s.cfg := by
  obtain ⟨-, ⟨e, -, rfl⟩ | ⟨i, -, he⟩⟩ := step_cases h
  · rfl
  · exact exec_cfg he

theorem run_cfg (n : Nat) (s : State) : (State.run n s).cfg = s.cfg := by
  induction n generalizing s with
  | zero => rfl
  | succ n ih =>
    rw [State.run]
    split
    · exact (ih _).trans (step_cfg ‹_›)
    · rfl
    · rfl

/-- Whether its checks passed or one raised, a meaning answers a next state (R80; log 3). -/
theorem State.settle_total (s : State) (e : Except Raised State) : ∃ t, s.settle e = .next t := by
  cases e <;> exact ⟨_, rfl⟩

theorem exec_total (i : Instr) (s : State) : ∃ t, exec i s = .next t := by
  cases i with
  | hlt => exact ⟨_, rfl⟩
  | nop => exact ⟨_, rfl⟩
  | _ => exact State.settle_total s _

theorem step_of_fetch_ok {s : State} {i : Instr} (hs : s.status = .running) (hf : s.fetchInstr = .ok i) :
    step s = exec i s := by
  simp only [step, hs, hf]

theorem step_of_fetch_error {s : State} {r : Raised} (hs : s.status = .running) (hf : s.fetchInstr = .error r) :
    step s = .next (s.takeFault r.cause r.info) := by
  simp only [step, hs, hf]

theorem step_total {s : State} (hs : s.status = .running) : ∃ t, step s = .next t := by
  cases hf : s.fetchInstr with
  | ok i =>
    rw [step_of_fetch_ok hs hf]
    exact exec_total i s
  | error r => exact ⟨_, step_of_fetch_error hs hf⟩

theorem status_running_of_step {s t : State} (h : step s = .next t) : s.status = .running :=
  State.status_running.2 (step_cases h).1

/-! ## The invariant -/

/-- A legal fault taken while running is set keeps the invariant. -/
theorem State.Inv.takeFault {s : State} (hs : s.Inv) (hr : s.running = true) {c : Cause} {n : Int}
    (hl : FaultRecord.legal ⟨c, n, s.pc⟩) : (s.takeFault c n).Inv where
  mem := hs.mem
  cfg := hs.cfg
  pc := hs.pc
  fault f hf := by
    obtain rfl : (⟨c, n, s.pc⟩ : FaultRecord) = f := Option.some.inj hf
    exact ⟨hr, rfl, hl⟩

/-- The effect of a fetched instruction keeps the invariant: its pc either moves on inside 0 to 256 or is a byte. -/
theorem Effect.inv {s t : State} {i : Instr} (h : Effect s t i) (hs : s.Inv) (hf : s.fault = none)
    (hpc : s.pc.toNat + i.length ≤ memSize) : t.Inv where
  mem := by
    rcases h.frame.mem with hm | ⟨v, hm⟩
    · rw [hm]
      exact hs.mem
    · rw [hm]
      exact State.pushed_wf hs.mem v
  cfg := by
    rw [h.frame.cfg]
    exact hs.cfg
  pc := by
    rcases h.frame.pc with hp | hp
    · rw [memSize] at hpc
      rw [hp, BitVec.toNat_add, BitVec.toNat_ofNat]
      omega
    · omega
  fault f hf' := by
    rw [h.frame.fault, hf] at hf'
    cases hf'

/-- Settles O10. The step is a failed fetch, an effect or a raise of the fetched instruction; each keeps the invariant. -/
theorem stepKeepsTheInvariant : Obligations.StepKeepsTheInvariant := by
  intro s t hs h
  obtain ⟨⟨hf, hr⟩, ⟨e, hd, rfl⟩ | ⟨i, hd, he⟩⟩ := step_cases h
  · exact hs.takeFault hr (State.fetchRaised_legal hs.pc hd)
  · have hpc := State.fetched_within_memory hd
    rcases exec_cases he with heff | ⟨r, hraise, rfl⟩
    · exact heff.inv hs hf hpc
    · exact hs.takeFault hr (hraise.legal hpc)

theorem State.resetWith_inv {c : Config} (hc : c.wf) : (State.resetWith c).Inv where
  mem := State.resetWith_mem_wf c
  cfg := hc
  pc := by simp [State.resetWith, pcReset]
  fault _ hf := nomatch hf

/-- Settles O9. The default opcode bytes are distinct, so the reset of every machine that meets R6 covers both parts. -/
theorem resetMeetsTheInvariant : Obligations.ResetMeetsTheInvariant :=
  ⟨fun _ => State.resetWith_inv, State.resetWith_inv (by decide)⟩

/-! ## The status and the running flag -/

/-- Settles O13: `step_total` in status Running, and no step outside it. -/
theorem statusFollowsItsTable : Obligations.StatusFollowsItsTable := by
  intro s
  have no_step : s.status ≠ .running → ∀ t, step s ≠ .next t := fun hs _ h => hs (status_running_of_step h)
  refine ⟨fun hf hr => ?_, fun hf hr => ?_, fun hf _ => ?_, fun hf _ => ?_⟩
  · have hs := State.status_running.2 ⟨hf, hr⟩
    exact ⟨hs, step_total hs⟩
  · have hs := State.status_halted.2 ⟨hf, hr⟩
    exact ⟨hs, no_step (by simp [hs])⟩
  · have hs := State.status_faulted.2 hf
    exact ⟨hs, no_step (by simp [hs])⟩
  · exact no_step (by simp [State.status_faulted.2 hf])

/-- Settles O22. A failed fetch and a raise leave the flag, and neither is a HLT; an effect clears it only if it is HLT's. -/
theorem onlyHltClearsRunning : Obligations.OnlyHltClearsRunning := by
  refine ⟨rfl, fun s t h => ?_⟩
  obtain ⟨⟨hf, hr⟩, ⟨e, hd, rfl⟩ | ⟨i, hd, he⟩⟩ := step_cases h
  · have hcur : s.current ≠ some .hlt := by simp [State.current_eq_some, hd]
    simp [hr, hcur]
  · have hcur : s.current = some i := State.current_eq_some.2 hd
    rcases exec_cases he with heff | ⟨r, hraise, rfl⟩
    · have hnofault : t.fault = none := heff.frame.fault.trans hf
      by_cases hi : i = .hlt
      · subst hi
        simp [hr, hcur, hnofault, heff.running_of_hlt]
      · simp [hr, hcur, hnofault, hi, heff.frame.running hi]
    · simp [hr, hcur, hraise.ne_hlt]

/-! ## The output, the registers written, the configuration -/

/-- Settles O23: a fault leaves the output, and by its frame so does every effect but PRN's. -/
theorem onlyPrnAppendsToTheOutput : Obligations.OnlyPrnAppendsToTheOutput := by
  intro s t h
  obtain ⟨-, ⟨e, -, rfl⟩ | ⟨i, hd, he⟩⟩ := step_cases h
  · exact .inl rfl
  rcases exec_cases he with heff | ⟨r, -, rfl⟩
  · rcases heff.frame.out with ho | ⟨b, r, rfl, hr, ho⟩
    · exact .inl ho
    · exact .inr ⟨b, r, State.current_eq_some.2 hd, hr, ho⟩
  · exact .inl rfl

theorem exec_reg_of_not_written {i : Instr} {s t : State} (h : exec i s = .next t) {j : Fin 8}
    (hj : j.val ∉ writesOf i) : t.reg j = s.reg j := by
  rcases exec_cases h with heff | ⟨r, -, rfl⟩
  · exact heff.frame.reg j hj
  · rfl

/-- Settles O25: an effect by its frame; a fault taken changes no register at all. -/
theorem registerWritesFollowTheTable : Obligations.RegisterWritesFollowTheTable :=
  fun _ _ _ h _ hj => exec_reg_of_not_written h hj

/-- Settles O28: step by step, and by induction on the fuel of the run. -/
theorem theOpcodeTableNeverChanges : Obligations.TheOpcodeTableNeverChanges :=
  ⟨fun _ _ h => step_cfg h, run_cfg⟩

end Sys2Proof.Machine
end

section
/-! PROOFS. What an instruction depends on (R12, R19): two states that agree on the registers it reads answer the same,
whatever their other registers and their output histories. One rule for each operation, then one chain of rules for each
instruction. -/

namespace Sys2Proof.Machine

/-! ## Two states that agree -/

/-- Two states agree on every field, on the registers in `P`, and on what was added to the output histories `o` and `o'`. -/
structure Agree (o o' : List Byte) (P : Fin 8 → Prop) (s s' : State) : Prop where
  cfg : s'.cfg = s.cfg
  pc : s'.pc = s.pc
  running : s'.running = s.running
  fault : s'.fault = s.fault
  mem : s'.mem = s.mem
  out : ∃ vs, s.out = o ++ vs ∧ s'.out = o' ++ vs
  reg : ∀ j, P j → s'.reg j = s.reg j

section
variable {o o' : List Byte} {P Q : Fin 8 → Prop} {s s' : State}

theorem Agree.mono (h : Agree o o' P s s') (hQ : ∀ j, Q j → P j) : Agree o o' Q s s' :=
  { h with reg := fun j hj => h.reg j (hQ j hj) }

/-- What the second history gained is what the first one gained. -/
theorem Agree.out_eq (h : Agree o o' P s s') : s'.out = o' ++ s.out.drop o.length := by
  obtain ⟨vs, ho, ho'⟩ := h.out
  rw [ho, ho', List.drop_left]

theorem Agree.sp (h : Agree o o' P s s') (h7 : P 7) : s'.sp = s.sp := h.reg 7 h7

theorem Agree.takeFault (h : Agree o o' P s s') (c : Cause) (n : Int) :
    Agree o o' P (s.takeFault c n) (s'.takeFault c n) :=
  { h with fault := by simp [State.takeFault, h.pc] }

theorem Agree.clearRunning (h : Agree o o' P s s') : Agree o o' P s.clearRunning s'.clearRunning :=
  { h with running := rfl }

theorem Agree.advance (h : Agree o o' P s s') (w : Nat) : Agree o o' P (s.advance w) (s'.advance w) :=
  { h with pc := by simp [h.pc] }

theorem Agree.jump (h : Agree o o' P s s') (p : PcWord) : Agree o o' P (s.jump p) (s'.jump p) :=
  { h with pc := rfl }

theorem Agree.emit (h : Agree o o' P s s') (v : Byte) : Agree o o' P (s.emit v) (s'.emit v) :=
  { h with
    out := by
      obtain ⟨vs, ho, ho'⟩ := h.out
      exact ⟨vs ++ [v], by simp [ho], by simp [ho']⟩ }

/-- Writing one value to a register of both makes them agree on that register too. -/
theorem Agree.setReg (h : Agree o o' P s s') (r : Fin 8) (v : Byte) :
    Agree o o' (fun j => P j ∨ j = r) (s.setReg r v) (s'.setReg r v) :=
  { h with
    reg := fun j hj => by
      rw [State.reg_setReg, State.reg_setReg]
      split
      · rfl
      · exact h.reg j (hj.resolve_right ‹_›) }

theorem Agree.pushed (h : Agree o o' P s s') (h7 : P 7) (v : Byte) : Agree o o' P (s.pushed v) (s'.pushed v) :=
  { h with
    mem := by simp [State.pushAddr, h.mem, h.sp h7]
    reg := fun j hj => by rw [State.pushed_reg, State.pushed_reg, h.sp h7, h.reg j hj] }

theorem Agree.popped (h : Agree o o' P s s') (h7 : P 7) : Agree o o' P s.popped s'.popped :=
  { h with reg := fun j hj => by rw [State.popped_reg, State.popped_reg, h.sp h7, h.reg j hj] }

end

/-! ## Two computations that answer alike -/

/-- Both raise the same fault, or both answer a value and the values are related. -/
def Alike {α : Type} (R : α → α → Prop) : Except Raised α → Except Raised α → Prop
  | .ok a, .ok a' => R a a'
  | .error r, .error r' => r' = r
  | .ok _, .error _ => False
  | .error _, .ok _ => False

theorem Alike.bind {α β : Type} {R : α → α → Prop} {S : β → β → Prop} {e e' : Except Raised α}
    {f f' : α → Except Raised β} (h : Alike R e e') (hf : ∀ a a', R a a' → Alike S (f a) (f' a')) :
    Alike S (e >>= f) (e' >>= f') := by
  cases e <;> cases e'
  case error.error => exact h
  case error.ok => exact h.elim
  case ok.error => exact h.elim
  case ok.ok a a' => exact hf a a' h

/-- A register operand names the same register for both, or raises for both. -/
theorem Alike.regIndex_bind {α : Type} {R : α → α → Prop} {b : Byte} {f f' : Fin 8 → Except Raised α}
    (hf : ∀ r, NamesReg b r → Alike R (f r) (f' r)) : Alike R (regIndex b >>= f) (regIndex b >>= f') := by
  rcases regIndex_split b with ⟨r, hr, he⟩ | ⟨-, he⟩
  · rw [he]
    exact hf r hr
  · rw [he]
    exact rfl

section
variable {o o' : List Byte} {P Q : Fin 8 → Prop} {s s' : State}

theorem Agree.push_alike (h : Agree o o' P s s') (h7 : P 7) {v v' : Byte} (hv : v' = v) :
    Alike (Agree o o' P) (s.push v) (s'.push v') := by
  subst hv
  by_cases hz : s.sp = 0
  · rw [State.push_empty _ hz, State.push_empty _ ((h.sp h7).trans hz)]
    exact rfl
  · rw [State.push_ok _ hz, State.push_ok _ (by rwa [h.sp h7])]
    exact h.pushed h7 _

theorem Agree.pop_alike (h : Agree o o' P s s') (h7 : P 7) :
    Alike (fun a a' => a'.1 = a.1 ∧ Agree o o' P a.2 a'.2) s.pop s'.pop := by
  rcases sp_below_or_above s with hlt | hge
  · rw [State.pop_ok hlt, State.pop_ok (by rwa [h.sp h7])]
    exact ⟨by rw [h.mem, h.sp h7], h.popped h7⟩
  · rw [State.pop_underflow hge, State.pop_underflow (by rwa [h.sp h7]), h.sp h7]
    exact rfl

theorem Agree.returnAddress_alike (h : Agree o o' P s s') : Alike (fun v v' => v' = v) s.returnAddress s'.returnAddress := by
  by_cases hp : s.pc.toNat ≤ 253
  · rw [State.returnAddress_ok hp, State.returnAddress_ok (by rwa [h.pc]), h.pc]
    exact rfl
  · rw [State.returnAddress_bad (by omega), State.returnAddress_bad (by rw [h.pc]; omega), h.pc]
    exact rfl

/-- The ALU reads its two registers and no other, and they then agree on the one it writes. -/
theorem Agree.aluApply_alike (h : Agree o o' P s s') (op : AluSelector) {a b : Fin 8} (ha : P a) (hb : P b) :
    Alike (Agree o o' fun j => P j ∨ j = a) (s.aluApply op a b) (s'.aluApply op a b) := by
  cases op with
  | add | sub | mul =>
    simp only [State.aluApply, h.reg a ha, h.reg b hb]
    exact h.setReg a _
  | div =>
    simp only [State.aluApply, h.reg a ha, h.reg b hb]
    split
    · exact rfl
    · exact h.setReg a _
  | other code => exact rfl

/-! ## Two runs of an instruction -/

/-- The end of two meanings alike: a fault taken leaves the agreement they began with, an effect adds the registers `Q`. -/
theorem Agree.settle (h : Agree o o' P s s') {e e' : Except Raised State}
    (he : Alike (Agree o o' fun j => P j ∨ Q j) e e') {t t' : State} (ht : s.settle e = .next t)
    (ht' : s'.settle e' = .next t') :
    Agree o o' P t t' ∧ (t.fault = none → Agree o o' (fun j => P j ∨ Q j) t t') := by
  cases e <;> cases e'
  case error.error r r' =>
    obtain rfl : r' = r := he
    cases ht
    cases ht'
    exact ⟨h.takeFault _ _, nofun⟩
  case error.ok => exact he.elim
  case ok.error => exact he.elim
  case ok.ok u u' =>
    cases ht
    cases ht'
    exact ⟨he.mono fun _ => .inl, fun _ => he⟩

/-- Agreement on registers the two already agree on is no more. -/
theorem Agree.add (h : Agree o o' P s s') (hQ : ∀ j, Q j → P j) : Agree o o' (fun j => P j ∨ Q j) s s' :=
  h.mono fun j hj => hj.elim id (hQ j)

theorem Agree.add_sp (h : Agree o o' P s s') (h7 : P 7) : Agree o o' (fun j => P j ∨ j.val ∈ [7]) s s' :=
  h.add fun j hj => by
    obtain rfl : j = 7 := Fin.ext (List.mem_singleton.1 hj)
    exact h7

theorem NamesReg.val_eq {b : Byte} {r : Fin 8} (hr : NamesReg b r) : r.val = b.toNat := hr.symm

theorem NamesReg.eq_of_mem {b : Byte} {r j : Fin 8} (hr : NamesReg b r) (hj : j.val ∈ [b.toNat]) : j = r :=
  Fin.ext ((List.mem_singleton.1 hj).trans hr)

/-- What the four ALU instructions share. -/
theorem Agree.of_aluInstr (h : Agree o o' P s s') {op : AluSelector} {p q : Byte}
    (hread : ∀ j : Fin 8, j.val ∈ [p.toNat, q.toNat] → P j) {t t' : State} (ht : s.aluInstr op p q = .next t)
    (ht' : s'.aluInstr op p q = .next t') :
    Agree o o' P t t' ∧ (t.fault = none → Agree o o' (fun j => P j ∨ j.val ∈ [p.toNat]) t t') := by
  refine h.settle (.regIndex_bind fun a ha => .regIndex_bind fun b hb => ?_) ht ht'
  have hPa : P a := hread a (by simp [ha.val_eq])
  have hPb : P b := hread b (by simp [hb.val_eq])
  refine (h.aluApply_alike op hPa hPb).bind fun u u' hu => ?_
  exact (hu.advance 3).mono fun j => .imp_right ha.eq_of_mem

/-- Two states that agree on the registers an instruction reads answer states that agree as before, and, if no fault is
taken, on the registers it writes. -/
theorem Agree.of_exec (h : Agree o o' P s s') {i : Instr} (hread : ∀ j : Fin 8, j.val ∈ readsOf i → P j) {t t' : State}
    (ht : exec i s = .next t) (ht' : exec i s' = .next t') :
    Agree o o' P t t' ∧ (t.fault = none → Agree o o' (fun j => P j ∨ j.val ∈ writesOf i) t t') := by
  cases i with
  | hlt => exact h.settle (e := .ok _) (e' := .ok _) ((h.clearRunning.advance 1).add (by simp [writesOf])) ht ht'
  | nop => exact h.settle (e := .ok _) (e' := .ok _) ((h.advance 1).add (by simp [writesOf])) ht ht'
  | mul p q => exact h.of_aluInstr hread ht ht'
  | add p q => exact h.of_aluInstr hread ht ht'
  | sub p q => exact h.of_aluInstr hread ht ht'
  | div p q => exact h.of_aluInstr hread ht ht'
  | ldi b imm =>
    refine h.settle (.regIndex_bind fun r hr => ?_) ht ht'
    exact ((h.setReg r imm).advance 3).mono fun j => .imp_right hr.eq_of_mem
  | prn b =>
    refine h.settle (.regIndex_bind fun r hr => ?_) ht ht'
    have hPr : P r := hread r (by simp [readsOf, hr.val_eq])
    rw [h.reg r hPr]
    exact ((h.emit _).advance 2).add (by simp [writesOf])
  | push b =>
    have h7 : P 7 := hread 7 (by simp [readsOf])
    refine h.settle (.regIndex_bind fun r hr => ?_) ht ht'
    have hPr : P r := hread r (by simp [readsOf, hr.val_eq])
    exact (h.push_alike h7 (h.reg r hPr)).bind fun u u' hu => (hu.advance 2).add_sp h7
  | pop b =>
    have h7 : P 7 := hread 7 (by simp [readsOf])
    refine h.settle (.regIndex_bind fun r hr => ?_) ht ht'
    refine (h.pop_alike h7).bind fun ⟨v, u⟩ ⟨v', u'⟩ ⟨hv, hu⟩ => ?_
    obtain rfl : v' = v := hv
    refine ((hu.setReg r v').advance 2).mono fun j hj => ?_
    rcases hj with hj | hj
    · exact .inl hj
    · rcases List.mem_cons.1 hj with hj | hj
      · obtain rfl : j = 7 := Fin.ext hj
        exact .inl h7
      · exact .inr (hr.eq_of_mem hj)
  | call b =>
    have h7 : P 7 := hread 7 (by simp [readsOf])
    refine h.settle (.regIndex_bind fun r hr => ?_) ht ht'
    have hPr : P r := hread r (by simp [readsOf, hr.val_eq])
    refine h.returnAddress_alike.bind fun v v' hv => (h.push_alike h7 hv).bind fun u u' hu => ?_
    rw [hu.reg r hPr]
    exact (hu.jump _).add_sp h7
  | ret =>
    have h7 : P 7 := hread 7 (by simp [readsOf])
    refine h.settle ?_ ht ht'
    refine (h.pop_alike h7).bind fun ⟨v, u⟩ ⟨v', u'⟩ ⟨hv, hu⟩ => ?_
    obtain rfl : v' = v := hv
    exact (hu.jump _).add_sp h7

end

/-- Settles O26: the agreement is on the registers of the reads column, and `Agree.of_exec` adds those of the writes column. -/
theorem registerReadsFollowTheTable : Obligations.RegisterReadsFollowTheTable := by
  intro i s s' t t' _ hpc hmem hrun hfault hout hcfg hreg ht ht'
  have h : Agree s.out s'.out (fun j => j.val ∈ readsOf i) s s' :=
    ⟨hcfg, hpc, hrun, hfault, hmem, ⟨[], by simp⟩, hreg⟩
  obtain ⟨ha, hw⟩ := h.of_exec (fun _ => id) ht ht'
  obtain ⟨vs, ho, ho'⟩ := ha.out
  have hsame : t'.out = t.out := by rw [ho, ho', hout]
  exact ⟨ha.pc, ha.mem, ha.running, ha.fault, hsame, ha.cfg, fun hf j hj => (hw hf).reg j (.inr hj)⟩

/-- Settles O27: a failed fetch appends nothing, and two states that differ only in the history agree on every register an
instruction can read. -/
theorem stepIgnoresTheOutputHistory : Obligations.StepIgnoresTheOutputHistory := by
  intro s t o h
  have hs := status_running_of_step h
  have hs' : State.status { s with out := o } = .running := hs
  cases hf : s.fetchInstr with
  | error r =>
    rw [step_of_fetch_error hs hf] at h
    cases h
    have hf' : State.fetchInstr { s with out := o } = .error r := hf
    rw [step_of_fetch_error hs' hf']
    simp [State.takeFault]
  | ok i =>
    rw [step_of_fetch_ok hs hf] at h
    have hf' : State.fetchInstr { s with out := o } = .ok i := hf
    rw [step_of_fetch_ok hs' hf']
    obtain ⟨t', ht'⟩ := exec_total i { s with out := o }
    have hagree : Agree s.out o (fun _ => True) s { s with out := o } :=
      ⟨rfl, rfl, rfl, rfl, rfl, ⟨[], by simp⟩, fun _ _ => rfl⟩
    obtain ⟨ha, -⟩ := hagree.of_exec (fun _ _ => trivial) h ht'
    rw [ht']
    exact congrArg Host.Outcome.next
      (State.ext_fields ha.cfg (fun j => ha.reg j trivial) ha.pc ha.running ha.fault ha.out_eq ha.mem)

end Sys2Proof.Machine
end

section
/-! PROOFS. Memory (20_memory.md): a read and a write inside and outside 0 to 255, the one cell a push stores, and which
instructions store at all. -/

namespace Sys2Proof.Machine

/-! ## The written cell and the others -/

theorem Memory.read_write_self {m : Memory} (hm : m.wf) (a : Nat) (v : Byte) : (m.write a v).read a = v := by
  rw [Memory.read_write hm, if_pos rfl]

theorem Memory.read_write_ne {m : Memory} (hm : m.wf) {a b : Nat} (v : Byte) (h : b ≠ a) :
    (m.write a v).read b = m.read b := by
  rw [Memory.read_write hm, if_neg h]

/-! ## The stack's two accesses -/

/-- The inversion of a push: it succeeds only above 0, and leaves the pushed state (R120). -/
theorem State.push_eq_ok {s t : State} {v : Byte} : s.push v = .ok t ↔ s.sp ≠ 0 ∧ t = s.pushed v := by
  by_cases hz : s.sp = 0
  · simp [State.push_empty v hz, hz]
  · rw [State.push_ok v hz, Except.ok.injEq, eq_comm, and_iff_right hz]

/-- The inversion of a pop: it succeeds only below the limit, and answers the byte at the stack pointer (R121). -/
theorem State.pop_eq_ok {s t : State} {v : Byte} :
    s.pop = .ok (v, t) ↔ s.sp < stackTop ∧ v = s.mem.read s.sp.toNat ∧ t = s.popped := by
  rcases sp_below_or_above s with hlt | hge
  · simp [State.pop_ok hlt, hlt, eq_comm]
  · simp [State.pop_underflow hge, BitVec.not_lt.2 hge]

theorem State.pushAddr_lt (s : State) : s.pushAddr < memSize := byte_lt_memSize (s.sp - 1)

/-- The pushed byte stands where the new stack pointer points. -/
theorem State.pushed_read_sp {s : State} (hm : s.mem.wf) (v : Byte) :
    (s.pushed v).mem.read (s.pushed v).sp.toNat = v := by
  rw [State.pushed_sp]
  exact Memory.read_write_self hm s.pushAddr v

/-- A memory that is as a push leaves it differs from the old one at most in the cell at the push address. -/
theorem State.sameMemExcept_of_pushed {s t : State} (hm : s.mem.wf) {v : Byte} (h : t.mem = (s.pushed v).mem) :
    s.SameMemExcept t s.pushAddr := by
  intro a ha
  rw [h]
  exact Memory.read_write_ne hm v ha

/-! ## Which effects store -/

/-- An effect that stores is a PUSH's or a CALL's, with the stack pointer above 0, and what it stores is one push. -/
theorem Effect.mem_unchanged_or_pushed {s t : State} {i : Instr} (h : Effect s t i) :
    t.mem = s.mem ∨ ((∃ b, i = .push b ∨ i = .call b) ∧ s.sp ≠ 0 ∧ ∃ v, t.mem = (s.pushed v).mem) := by
  cases i with
  | push b =>
    obtain ⟨r, -, hsp, rfl⟩ := h
    exact .inr ⟨⟨b, .inl rfl⟩, hsp, s.reg r, rfl⟩
  | call b =>
    obtain ⟨r, -, -, hsp, rfl⟩ := h
    exact .inr ⟨⟨b, .inr rfl⟩, hsp, BitVec.ofNat 8 (s.pc.toNat + 2), rfl⟩
  | hlt | nop =>
    obtain rfl := h
    exact .inl rfl
  | ldi | prn =>
    obtain ⟨r, -, rfl⟩ := h
    exact .inl rfl
  | mul | add | sub =>
    obtain ⟨a, b, -, -, rfl⟩ := h
    exact .inl rfl
  | div =>
    obtain ⟨a, b, -, -, -, rfl⟩ := h
    exact .inl rfl
  | pop =>
    obtain ⟨r, -, -, rfl⟩ := h
    exact .inl rfl
  | ret =>
    obtain ⟨-, rfl⟩ := h
    exact .inl rfl

/-! ## The statements -/

/-- Settles O24: a failed fetch and a raise leave memory, and an effect stores only by a push. -/
theorem onlyPushAndCallStore : Obligations.OnlyPushAndCallStore := by
  intro s t hm h
  obtain ⟨-, ⟨e, -, rfl⟩ | ⟨i, hd, he⟩⟩ := step_cases h
  · exact .inl rfl
  rcases exec_cases he with heff | ⟨r, -, rfl⟩
  · rcases heff.mem_unchanged_or_pushed with hmem | ⟨⟨b, hi⟩, hsp, v, hmem⟩
    · exact .inl hmem
    · have hcur : s.current = some i := State.current_eq_some.2 hd
      exact .inr ⟨⟨b, hi.imp (hcur.trans <| congrArg some ·) (hcur.trans <| congrArg some ·)⟩, hsp,
        State.sameMemExcept_of_pushed hm hmem⟩
  · exact .inl rfl

/-- Settles O32: the two ranges of a read, and a pop leaves the memory it read. -/
theorem memReadInAndOutOfRange : Obligations.MemReadInAndOutOfRange := by
  refine fun s => ⟨fun a ha => s.memRead_ok (Nat.lt_succ_of_le ha), fun a ha => s.memRead_bad ha, fun v t hpop => ?_⟩
  obtain ⟨-, -, rfl⟩ := State.pop_eq_ok.1 hpop
  exact fun _ => rfl

/-- Settles O33: the two ranges of a write; the written state is the old one but for its memory. -/
theorem memWriteInAndOutOfRange : Obligations.MemWriteInAndOutOfRange := by
  refine fun s v hm => ⟨fun a ha => ?_, fun a ha => s.memWrite_bad v ha, Nat.le_of_lt_succ s.pushAddr_lt⟩
  have hin : a < memSize := Nat.lt_succ_of_le ha
  exact ⟨_, s.memWrite_ok v hin, Memory.read_write_self hm a v, fun _ hne => Memory.read_write_ne hm v hne,
    Memory.write_wf hm hin v, fun _ _ => rfl, rfl, rfl, rfl, rfl, rfl⟩

/-- Settles O34: the fetch reads memory as it stands, and there the new stack pointer's cell holds the pushed byte. -/
theorem aStoreIsSeenByTheNextFetch : Obligations.AStoreIsSeenByTheNextFetch := by
  intro s t v hm hpush
  obtain ⟨-, rfl⟩ := State.push_eq_ok.1 hpush
  have hpc : ((s.pushed v).jump (zext9 (s.pushed v).sp)).pc.toNat + 0 = (s.pushed v).sp.toNat :=
    zext9_toNat (s.pushed v).sp
  rw [State.fetchByte_eq, hpc, if_pos (byte_lt_memSize (s.pushed v).sp)]
  exact congrArg some (State.pushed_read_sp hm v)

end Sys2Proof.Machine
end

section
/-! PROOFS. The encoding (30_encoding.md): the opcode byte's row and the operand bytes after it decide what is decoded,
and the encoder writes exactly these bytes. First that, said once; then the statements. -/

namespace Sys2Proof

/-! ## A row, its operand bytes and its encoding -/

/-- The bytes an instruction is encoded in: its row's opcode byte, then the rest (R50). -/
theorem encode_eq_cons (c : Config) (i : Instr) : encode c i = c.opcodeOf i.mnemonic :: (encode c i).tail := by
  cases i <;> rfl

theorem length_encode (c : Config) (i : Instr) : (encode c i).length = i.length := by
  cases i <;> rfl

@[simp] theorem Mnemonic.mnemonic_build (m : Mnemonic) (b1 b2 : Byte) : (m.build b1 b2).mnemonic = m := by
  cases m <;> rfl

/-- An instruction has the operand bytes its row's format takes, and no others (R51 to R54). -/
theorem Mnemonic.tail_encode_build (c : Config) (m : Mnemonic) (b1 b2 : Byte) :
    (encode c (m.build b1 b2)).tail = [b1, b2].take m.format.operandCount := by
  cases m <;> rfl

/-- Every instruction is built by its row from two bytes, of which the row may use fewer. -/
theorem Instr.exists_eq_build (i : Instr) : ∃ b1 b2, i = i.mnemonic.build b1 b2 := by
  cases i with
  | hlt | ret | nop => exact ⟨0, 0, rfl⟩
  | prn r | push r | pop r | call r => exact ⟨r, 0, rfl⟩
  | ldi a b | mul a b | add a b | sub a b | div a b => exact ⟨a, b, rfl⟩

/-! ## What the decoder answers -/

theorem decode_nil (c : Config) : decode c [] = .error (.missingByte 0) := rfl

theorem decode_cons_of_lookup_none {c : Config} {op : Byte} (h : c.lookup op = none) (rest : List Byte) :
    decode c (op :: rest) = .error (.invalidOpcode op) := by
  simp [decode, decodeFrom, h]

/-- The opcode byte has a row and the row's operand bytes follow: the row's instruction is decoded. -/
theorem decode_cons_build {c : Config} {op : Byte} {m : Mnemonic} (h : c.lookup op = some m) {b1 b2 : Byte}
    {rest : List Byte} (hops : [b1, b2].take m.format.operandCount <+: rest) :
    decode c (op :: rest) = .ok (m.build b1 b2) := by
  obtain ⟨more, rfl⟩ := hops
  cases m <;> simp [decode, decodeFrom, h, Mnemonic.format, Format.operandCount, Mnemonic.build]

/-- What a decode of an opcode byte with a row can answer: the row's instruction, made of the bytes that follow, or that
an operand byte is missing. -/
theorem decode_cons_of_lookup_some {c : Config} {op : Byte} {m : Mnemonic} (h : c.lookup op = some m) (rest : List Byte) :
    (∃ b1 b2, [b1, b2].take m.format.operandCount <+: rest ∧ decode c (op :: rest) = .ok (m.build b1 b2)) ∨
      ∃ k, decode c (op :: rest) = .error (.missingByte k) := by
  match rest, hf : m.format with
  | rest, .n => exact .inl ⟨0, 0, List.nil_prefix, decode_cons_build h (by rw [hf]; exact List.nil_prefix)⟩
  | b1 :: more, .r => exact .inl ⟨b1, 0, ⟨more, rfl⟩, decode_cons_build h (by rw [hf]; exact ⟨more, rfl⟩)⟩
  | b1 :: b2 :: more, .ri | b1 :: b2 :: more, .rr =>
    exact .inl ⟨b1, b2, ⟨more, rfl⟩, decode_cons_build h (by rw [hf]; exact ⟨more, rfl⟩)⟩
  | [], .r | [], .ri | [], .rr => exact .inr ⟨1, by simp [decode, decodeFrom, h, hf, Format.operandCount]⟩
  | [_], .ri | [_], .rr => exact .inr ⟨2, by simp [decode, decodeFrom, h, hf, Format.operandCount]⟩

/-- The decoder answers an instruction exactly when the opcode byte has its row and its operand bytes follow. -/
theorem decode_cons_eq_ok {c : Config} {op : Byte} {rest : List Byte} {i : Instr} :
    decode c (op :: rest) = .ok i ↔ c.lookup op = some i.mnemonic ∧ (encode c i).tail <+: rest := by
  constructor
  · intro hd
    cases hl : c.lookup op with
    | none => simp [decode_cons_of_lookup_none hl] at hd
    | some m =>
      rcases decode_cons_of_lookup_some hl rest with ⟨b1, b2, hops, hok⟩ | ⟨k, herr⟩
      · obtain rfl : m.build b1 b2 = i := Except.ok.inj (hok.symm.trans hd)
        rw [m.mnemonic_build, m.tail_encode_build]
        exact ⟨rfl, hops⟩
      · simp [herr] at hd
  · rintro ⟨hl, hops⟩
    obtain ⟨b1, b2, hi⟩ := i.exists_eq_build
    rw [hi, Mnemonic.tail_encode_build] at hops
    rw [hi]
    exact decode_cons_build hl hops

/-- An opcode byte is called invalid exactly when it has no row (R60, R72). -/
theorem decode_cons_eq_invalidOpcode {c : Config} {op op' : Byte} {rest : List Byte} :
    decode c (op :: rest) = .error (.invalidOpcode op') ↔ op' = op ∧ c.lookup op = none := by
  cases hl : c.lookup op with
  | none => simp [decode_cons_of_lookup_none hl, eq_comm]
  | some m =>
    rcases decode_cons_of_lookup_some hl rest with ⟨b1, b2, -, hok⟩ | ⟨k, herr⟩
    · simp [hok]
    · simp [herr]

/-! ## How many bytes have no row -/

/-- R6's constraint, said of the rows' names. -/
theorem Config.wf.nodup_opcodeOf {c : Config} (hc : c.wf) : (c.mnemonics.map c.opcodeOf).Nodup := by
  simpa [Config.wf, Config.table, Function.comp_def] using hc

theorem Config.isSome_lookup {c : Config} {op : Byte} : (c.lookup op).isSome = true ↔ op ∈ c.mnemonics.map c.opcodeOf := by
  rw [← not_iff_not, Bool.not_eq_true, Option.isSome_eq_false_iff, Option.isNone_iff_eq_none, Config.lookup_none]
  simp

/-- Under R6's constraint the rows in force take one byte each of the 256 (R60). -/
theorem Config.count_lookup_none {c : Config} (hc : c.wf) :
    ((List.range 256).filter fun n => (c.lookup (BitVec.ofNat 8 n)).isNone).length = 256 - c.mnemonics.length := by
  have hperm : ((List.range 256).filter fun n => (c.lookup (BitVec.ofNat 8 n)).isSome).Perm
      ((c.mnemonics.map c.opcodeOf).map BitVec.toNat) := by
    rw [List.perm_ext_iff_of_nodup (List.nodup_range.filter _) (hc.nodup_opcodeOf.map fun _ _ => BitVec.eq_of_toNat_eq)]
    intro n
    rw [List.mem_filter, List.mem_range, Config.isSome_lookup, List.mem_map (l := c.mnemonics.map _)]
    constructor
    · rintro ⟨hn, hmem⟩
      exact ⟨_, hmem, Nat.mod_eq_of_lt hn⟩
    · rintro ⟨op, hmem, rfl⟩
      exact ⟨op.isLt, by simpa using hmem⟩
  have hsplit := List.length_eq_length_filter_add (l := List.range 256) fun n => (c.lookup (BitVec.ofNat 8 n)).isSome
  rw [hperm.length_eq, List.length_map, List.length_map, List.length_range] at hsplit
  simp only [Option.not_isSome] at hsplit
  omega

/-! ## The statements -/

/-- Settles O1: an encoding begins with its row's byte, which under R6's constraint has that row, and goes on with the
operand bytes the row takes. -/
theorem decodeOfEncodeIsTheInstruction : Obligations.DecodeOfEncodeIsTheInstruction := by
  intro c i rest hc hi
  rw [encode_eq_cons, List.cons_append, decode_cons_eq_ok]
  exact ⟨Config.lookup_opcodeOf hc (i.inForce_iff.1 hi), List.prefix_append _ rest⟩

/-- Settles O2: the row found is in force and has the opcode byte read, and the operand bytes read are the encoding's. -/
theorem decodedBytesAreTheEncoding : Obligations.DecodedBytesAreTheEncoding := by
  intro c bytes i hd
  cases bytes with
  | nil => simp [decode_nil] at hd
  | cons op rest =>
    obtain ⟨hl, hops⟩ := decode_cons_eq_ok.1 hd
    obtain ⟨hmem, hop⟩ := Config.lookup_some hl
    have hpre : encode c i <+: op :: rest := by
      rw [encode_eq_cons, hop]
      exact List.cons_prefix_cons.2 ⟨rfl, hops⟩
    rw [← length_encode c i]
    exact ⟨i.inForce_iff.2 hmem, hpre.length_le, List.prefix_iff_eq_take.1 hpre, by simp [length_encode, Instr.length],
      length_encode c i ▸ i.length_le⟩

/-- Settles O3: the rejected bytes are those with no row, 256 less one for each row in force, and LDI's immediate is no
opcode byte. -/
theorem opcodeBytesOfNoRowAreRejected : Obligations.OpcodeBytesOfNoRowAreRejected := by
  refine ⟨fun c op op' rest => ?_, Config.count_lookup_none (by decide), Config.count_lookup_none (by decide),
    fun c r v hc => decodeOfEncodeIsTheInstruction c (.ldi r v) [] hc rfl⟩
  rw [decode_cons_eq_invalidOpcode, Config.lookup_none]

/-- Settles O4: with HAS_SUBDIV the two rows are in force and decode as any row does; without it their bytes have no row. -/
theorem optionalRowsAreDecodedOnlyWithSubdiv : Obligations.OptionalRowsAreDecodedOnlyWithSubdiv := by
  refine fun c a b rest => ⟨fun hsub hc => ⟨?_, ?_⟩, fun _ hno => ?_, fun _ hno => ?_⟩
  · exact decodeOfEncodeIsTheInstruction c (.sub a b) rest hc hsub
  · exact decodeOfEncodeIsTheInstruction c (.div a b) rest hc hsub
  · exact decode_cons_of_lookup_none (Config.lookup_none.2 hno) rest
  · exact decode_cons_of_lookup_none (Config.lookup_none.2 hno) rest

/-- Settles O5: each word is the encoding of its instruction, in a configuration that meets R6's constraint. -/
theorem writtenOutWordsDecode : Obligations.WrittenOutWordsDecode := by
  have hbase (i : Instr) (hi : i.inForce .default = true) : decode .default (encode .default i) = .ok i := by
    simpa using decodeOfEncodeIsTheInstruction .default i [] (by decide) hi
  have hsub (i : Instr) : decode Config.default.withSubdiv (encode Config.default.withSubdiv i) = .ok i := by
    simpa using decodeOfEncodeIsTheInstruction _ i [] (by decide) (by simp [Instr.inForce, Config.withSubdiv])
  exact ⟨hbase (.ldi 0 8) rfl, hbase (.prn 0) rfl, hbase .hlt rfl, hbase (.add 0 1) rfl, hbase (.mul 3 2) rfl,
    hbase (.push 7) rfl, hbase (.pop 1) rfl, hbase (.call 1) rfl, hbase .ret rfl, hbase .nop rfl, hsub (.sub 2 3),
    hsub (.div 0 1)⟩

end Sys2Proof

namespace Sys2Proof.Machine

/-- The decoder uses the configuration's table and nothing else of it (R59). -/
theorem decodeFrom_congr_table {c c' : Config} (h : c'.table = c.table) (read : Nat → Option Byte) :
    decodeFrom c' read = decodeFrom c read := by
  have hl : c'.lookup = c.lookup := funext fun op => by rw [Config.lookup, Config.lookup, h]
  simp only [decodeFrom, hl]

/-- Settles O6: the fetch decodes the bytes at `pc` by the table, its record of a failure is made from `pc`, and a
decoded instruction's row is that of its first byte. -/
theorem decodingReadsOnlyBytesAndTable : Obligations.DecodingReadsOnlyBytesAndTable := by
  refine ⟨fun s s' htable hpc hbytes => ?_, fun c op rest i hd => ⟨(decode_cons_eq_ok.1 hd).1, rfl⟩⟩
  have hdecode : decodeFrom s'.cfg s'.fetchByte = decodeFrom s.cfg s.fetchByte := by
    rw [decodeFrom_congr_table htable]
    refine decodeFrom_congr s.cfg fun k hk => ?_
    rw [State.fetchByte_eq, State.fetchByte_eq, hpc, hbytes k (Nat.le_of_lt_succ hk)]
  have hraise : s'.fetchRaised = s.fetchRaised := by
    funext e
    cases e <;> simp only [State.fetchRaised, hpc]
  simp only [State.fetchInstr, hdecode, hraise]

end Sys2Proof.Machine
end

section
/-! PROOFS. The dispatch engine (40_dispatch_engine.md): when a step is taken, what each phase of it raises, how `pc`
moves on, and where a run ends. First each phase and the run, said once; then the statements. -/

namespace Sys2Proof.Machine

/-! ## Whether a step is taken -/

theorem step_of_halted {s : State} (hs : s.status = .halted) : step s = .fault .halted := by
  simp only [step, hs]

theorem step_of_faulted {s : State} (hs : s.status = .faulted) : step s = .fault .faulted := by
  simp only [step, hs]

theorem step_ne_next {s : State} (hs : s.status ≠ .running) (t : State) : step s ≠ .next t :=
  fun h => hs (status_running_of_step h)

/-- In status Running a step is the meaning of the instruction that stands at `pc` (R70). -/
theorem step_of_decode_ok {s : State} {i : Instr} (hs : s.status = .running) (hd : decode s.cfg s.window = .ok i) :
    step s = exec i s :=
  step_of_fetch_ok hs (State.fetchInstr_ok.2 hd)

/-- In status Running a decode that fails has its fault taken (R71 to R73, R158). -/
theorem step_of_decodeFrom_error {s : State} {e : DecodeError} (hs : s.status = .running)
    (hd : decodeFrom s.cfg s.fetchByte = .error e) :
    step s = .next (s.takeFault (s.fetchRaised e).cause (s.fetchRaised e).info) :=
  step_of_fetch_error hs (by simp only [State.fetchInstr, hd])

/-! ## How a decode fails -/

theorem decodeFrom_of_no_opcode {c : Config} {read : Nat → Option Byte} (h0 : read 0 = none) :
    decodeFrom c read = .error (.missingByte 0) := by
  simp only [decodeFrom, h0]

theorem decodeFrom_of_lookup_none {c : Config} {read : Nat → Option Byte} {op : Byte} (h0 : read 0 = some op)
    (hl : c.lookup op = none) : decodeFrom c read = .error (.invalidOpcode op) := by
  simp only [decodeFrom, h0, hl]

/-- The first operand byte of the row that does not exist is the missing one (R73). -/
theorem decodeFrom_of_missing_operand {c : Config} {read : Nat → Option Byte} {op : Byte} {m : Mnemonic} {k : Nat}
    (h0 : read 0 = some op) (hl : c.lookup op = some m) (hpos : 0 < k) (hk : k ≤ m.format.operandCount)
    (hnone : read k = none) (hbelow : ∀ j, j < k → read j ≠ none) :
    decodeFrom c read = .error (.missingByte k) := by
  have hcount : m.format.operandCount = 1 ∨ m.format.operandCount = 2 := by
    cases hf : m.format with
    | n =>
      rw [hf, Format.operandCount] at hk
      omega
    | r => exact .inl rfl
    | ri | rr => exact .inr rfl
  obtain rfl | ⟨rfl, h2⟩ : k = 1 ∨ k = 2 ∧ m.format.operandCount = 2 := by omega
  · rcases hcount with h1 | h2
    · simp only [decodeFrom, h0, hl, h1, hnone]
    · simp only [decodeFrom, h0, hl, h2, hnone]
  · obtain ⟨b1, hb1⟩ := Option.ne_none_iff_exists'.1 (hbelow 1 one_lt_two)
    simp only [decodeFrom, h0, hl, h2, hb1, hnone]

/-- Inside memory the opcode byte is the cell at `pc` (R71). -/
theorem State.fetchByte_zero {s : State} (h : s.pc.toNat ≤ 255) : s.fetchByte 0 = some (s.mem.read s.pc.toNat) := by
  rw [State.fetchByte_eq]
  exact if_pos (Nat.lt_succ_of_le h)

/-! ## The register index check -/

/-- A meaning that begins with a bad register operand goes no further (R74). -/
theorem State.settle_regIndex_bad (s : State) {b : Byte} (h : 8 ≤ b.toNat) (f : Fin 8 → Except Raised State) :
    s.settle (regIndex b >>= f) = .next (s.takeFault .invalidRegister b.toNat) := by
  rw [regIndex_bad h]
  rfl

/-- The operands of an ALU instruction are checked in encoding order, before the ALU's own check (R74, R106). -/
theorem State.aluInstr_first_bad (s : State) (op : AluSelector) {p q b : Byte}
    (h : [p, q].find? (fun b => decide (8 ≤ b.toNat)) = some b) :
    s.aluInstr op p q = .next (s.takeFault .invalidRegister b.toNat) := by
  rcases regIndex_split p with ⟨a, ha, hok⟩ | ⟨h8, -⟩
  · have hp : ¬ 8 ≤ p.toNat := by rw [ha]; omega
    obtain ⟨hq, rfl⟩ : 8 ≤ q.toNat ∧ q = b := by simpa [hp] using h
    rw [State.aluInstr, hok]
    exact s.settle_regIndex_bad hq _
  · obtain rfl : p = b := by simpa [h8] using h
    exact s.settle_regIndex_bad h8 _

/-! ## How pc moves -/

/-- An advance that stays below 512 does not wrap (R15). -/
theorem State.advance_pc_toNat {s : State} {w : Nat} (h : s.pc.toNat + w < 512) :
    (s.advance w).pc.toNat = s.pc.toNat + w := by
  rw [State.advance_pc, BitVec.toNat_add, BitVec.toNat_ofNat]
  omega

/-- The two control transfers (R75). -/
def IsTransfer (i : Instr) : Prop := (∃ b, i = .call b) ∨ i = .ret

/-- An effect other than a control transfer's ends with an advance by the instruction's length (R75). -/
theorem Effect.pc_of_not_transfer {s t : State} {i : Instr} (h : Effect s t i) (hi : ¬ IsTransfer i) :
    t.pc = (s.advance i.length).pc := by
  cases i with
  | call b => exact absurd (.inl ⟨b, rfl⟩) hi
  | ret => exact absurd (.inr rfl) hi
  | hlt | nop =>
    obtain rfl := h
    rfl
  | ldi | prn =>
    obtain ⟨r, -, rfl⟩ := h
    rfl
  | push | pop =>
    obtain ⟨r, -, -, rfl⟩ := h
    rfl
  | mul | add | sub =>
    obtain ⟨a, b, -, -, rfl⟩ := h
    rfl
  | div =>
    obtain ⟨a, b, -, -, -, rfl⟩ := h
    rfl

/-- A control transfer goes to the address a byte holds (R135, R136). -/
theorem Effect.pc_of_transfer {s t : State} {i : Instr} (h : Effect s t i) (hi : IsTransfer i) : t.pc.toNat ≤ 255 := by
  rcases hi with ⟨b, rfl⟩ | rfl
  · obtain ⟨r, -, -, -, rfl⟩ := h
    exact zext9_toNat_le _
  · obtain ⟨-, rfl⟩ := h
    exact zext9_toNat_le _

/-- A step that takes no fault is the effect of the instruction at `pc`. -/
theorem effect_of_step {s t : State} {i : Instr} (h : step s = .next t) (hf : t.fault = none)
    (hcur : s.current = some i) : Effect s t i := by
  have hexec : exec i s = .next t :=
    (step_of_decode_ok (status_running_of_step h) (State.current_eq_some.1 hcur)).symm.trans h
  rcases exec_cases hexec with heff | ⟨r, -, rfl⟩
  · exact heff
  · cases hf

/-! ## The run -/

theorem run_succ_of_step {s t : State} (h : step s = .next t) (n : Nat) : State.run (n + 1) s = State.run n t := by
  simp only [State.run, h]

/-- Outside status Running a run stays where it is (R77). -/
theorem run_of_not_running {s : State} (hs : s.status ≠ .running) (n : Nat) : State.run n s = s := by
  cases n with
  | zero => rfl
  | succ n =>
    rw [State.run]
    split
    · exact absurd ‹_› (step_ne_next hs _)
    · rfl
    · rfl

/-- A run of `m + k` steps is one of `m` steps gone on with for `k` more. -/
theorem run_add (m k : Nat) (s : State) : State.run (m + k) s = State.run k (State.run m s) := by
  induction m generalizing s with
  | zero => rw [Nat.zero_add, State.run]
  | succ m ih =>
    by_cases hs : s.status = .running
    · obtain ⟨t, ht⟩ := step_total hs
      rw [Nat.succ_add, run_succ_of_step ht, run_succ_of_step ht, ih]
    · simp only [run_of_not_running hs]

/-! ## The statements -/

/-- Settles O12: a meaning always answers a next state, and so does a Running step; the two terminal statuses stop. -/
theorem runningAlwaysStepsAndTerminalNever : Obligations.RunningAlwaysStepsAndTerminalNever :=
  ⟨exec_total, fun _ => ⟨step_total, step_of_halted, step_of_faulted⟩⟩

/-- Settles O29: the instruction fetched ends inside memory, so the advance of its effect does not wrap. -/
theorem pcAdvancesByTheInstructionLength : Obligations.PcAdvancesByTheInstructionLength := by
  intro s t i h hf hcur
  have heff := effect_of_step h hf hcur
  refine ⟨fun hcall hret => ?_, heff.pc_of_transfer⟩
  have hend : s.pc.toNat + i.length ≤ 256 := State.fetched_within_memory (State.current_eq_some.1 hcur)
  have hpc : t.pc.toNat = s.pc.toNat + i.length := by
    rw [heff.pc_of_not_transfer (not_or.2 ⟨fun ⟨b, hb⟩ => hcall b hb, hret⟩), State.advance_pc_toNat (by omega)]
  exact ⟨hpc, by omega⟩

/-- Settles O30: the run of `n` steps goes on from the one of `m`, which stands where it is when not Running. -/
theorem terminalStatesAreFinal : Obligations.TerminalStatesAreFinal := by
  intro s m n hmn hs
  obtain ⟨k, rfl⟩ := Nat.exists_eq_add_of_le hmn
  refine ⟨by rw [run_add, run_of_not_running hs], ?_⟩
  cases hst : (State.run m s).status with
  | running => exact absurd hst hs
  | halted => exact .inl (State.status_halted.1 hst).symm
  | faulted => exact .inr (State.status_faulted.1 hst)

/-- Settles O11: what the fetch decodes is what stands in the window. -/
theorem stepRunsTheDecodedInstruction : Obligations.StepRunsTheDecodedInstruction :=
  fun _ _ => step_of_decode_ok

/-- Settles O14: the record and the flag give the status, and the status says whether a step is taken. -/
theorem loopGateAfterAStep : Obligations.LoopGateAfterAStep := by
  intro s t _
  refine ⟨fun hf hr => ?_, fun hf hr => ?_, fun hf => ?_⟩
  · have ht := State.status_halted.2 ⟨hf, hr⟩
    exact ⟨ht, step_ne_next (by simp [ht])⟩
  · have ht := State.status_running.2 ⟨hf, hr⟩
    exact ⟨ht, step_total ht, fun _ => step_of_decode_ok ht⟩
  · have ht := State.status_faulted.2 hf
    exact ⟨ht, step_ne_next (by simp [ht])⟩

/-- Settles O15: above 255 there is no opcode byte to fetch, and its address is `pc`. -/
theorem fetchAbove255TakesMemoryFault : Obligations.FetchAbove255TakesMemoryFault := by
  refine fun s => ⟨fun hs hpc => ?_, State.fetchByte_zero⟩
  have hnone : s.fetchByte 0 = none := State.fetchByte_eq_none.2 hpc
  exact step_of_decodeFrom_error hs (decodeFrom_of_no_opcode hnone)

/-- Settles O16: the decode fails on the opcode byte, before any operand byte is looked at. -/
theorem unlistedOpcodeTakesInvalidOpcode : Obligations.UnlistedOpcodeTakesInvalidOpcode := by
  intro s hs hpc hno
  have hd := decodeFrom_of_lookup_none (State.fetchByte_zero hpc) (Config.lookup_none.2 hno)
  have hrun := (State.status_running.1 hs).2
  exact ⟨_, step_of_decodeFrom_error hs hd, rfl, hrun, rfl, fun _ => rfl, rfl, rfl, rfl⟩

/-- Settles O17: the byte `256 - pc` places after the opcode byte is the first that does not exist. -/
theorem operandBeyondMemoryTakesMemoryFault : Obligations.OperandBeyondMemoryTakesMemoryFault := by
  intro s m hs hc hm hpc hop hend
  have h0 : s.fetchByte 0 = some (s.cfg.opcodeOf m) := by rw [State.fetchByte_zero hpc, hop]
  have hmissing : s.fetchByte (256 - s.pc.toNat) = none := State.fetchByte_eq_none.2 (by rw [memSize]; omega)
  have hpresent : ∀ j, j < 256 - s.pc.toNat → s.fetchByte j ≠ none := by
    intro j hj
    rw [Ne, State.fetchByte_eq_none, memSize]
    omega
  have hd := decodeFrom_of_missing_operand h0 (Config.lookup_opcodeOf hc hm) (by omega) (by omega) hmissing hpresent
  have haddr : s.pc.toNat + (256 - s.pc.toNat) = 256 := by omega
  rw [step_of_decodeFrom_error hs hd, State.fetchRaised, haddr]
  rfl

/-- Settles O18: every meaning with a register operand begins with the check of its operands in encoding order. -/
theorem badRegisterOperandTakesInvalidRegister : Obligations.BadRegisterOperandTakesInvalidRegister := by
  intro i s b h
  cases i with
  | hlt | ret | nop => simp [Instr.regOperands] at h
  | ldi r | prn r | push r | pop r | call r =>
    obtain ⟨h8, rfl⟩ : 8 ≤ r.toNat ∧ r = b := by simpa [Instr.regOperands] using h
    exact s.settle_regIndex_bad h8 _
  | mul p q | add p q | sub p q | div p q => exact s.aluInstr_first_bad _ h

/-- Settles O36: HLT's meaning is one state for every state it begins in. -/
theorem hltHaltsAndAdvances : Obligations.HltHaltsAndAdvances := by
  intro s
  refine ⟨s.clearRunning.advance 1, rfl, rfl, rfl, fun hpc => ?_, fun _ _ => rfl, fun _ => rfl, rfl, rfl, rfl,
    fun hf => State.status_halted.2 ⟨hf, rfl⟩⟩
  exact State.advance_pc_toNat (s := s.clearRunning) (by rw [State.clearRunning_pc]; omega)

/-- Settles O37: NOP's meaning is the advance alone. -/
theorem nopOnlyAdvances : Obligations.NopOnlyAdvances := by
  intro s
  exact ⟨s.advance 1, rfl, rfl, fun hpc => State.advance_pc_toNat (by omega), fun _ _ => rfl, fun _ => rfl, rfl,
    rfl, rfl, rfl⟩

end Sys2Proof.Machine
end

section
/-! PROOFS. LDI, PRN and the rendering of the output (41_load_print.md): the one state each of the two instructions leaves,
and which digits the numeral of a byte is made of. -/

namespace Sys2Proof.Machine

/-! ## The two instructions on a legal operand -/

/-- LDI with a legal register operand has no check of its own (R90). -/
theorem exec_ldi_of_names (s : State) {b : Byte} {r : Fin 8} (h : NamesReg b r) (imm : Byte) :
    exec (.ldi b imm) s = .next ((s.setReg r imm).advance 3) := by
  simp [exec, execLdi, regIndex_names h]

/-- PRN with a legal register operand has no check of its own (R91). -/
theorem exec_prn_of_names (s : State) {b : Byte} {r : Fin 8} (h : NamesReg b r) :
    exec (.prn b) s = .next ((s.emit (s.reg r)).advance 2) := by
  simp [exec, execPrn, regIndex_names h]

/-! ## The numeral of a byte -/

theorem digitChar_toNat {d : Nat} (h : d ≤ 9) : (digitChar d).toNat = 48 + d := by
  rw [digitChar, BitVec.toNat_ofNat]
  omega

theorem digitChar_ne_zero_char {d : Nat} (h1 : 1 ≤ d) (h9 : d ≤ 9) : digitChar d ≠ 48 := by
  intro h
  have hd : (digitChar d).toNat = 48 := congrArg BitVec.toNat h
  rw [digitChar_toNat h9] at hd
  omega

/-- The numeral has one, two or three digits, the first of two or three not zero, and they are those of the byte's number
in base ten (R92). -/
theorem numeral_cases (v : Byte) :
    (∃ a, a ≤ 9 ∧ v.toNat = a ∧ numeral v = [digitChar a]) ∨
    (∃ a b, (1 ≤ a ∧ a ≤ 9) ∧ b ≤ 9 ∧ v.toNat = 10 * a + b ∧ numeral v = [digitChar a, digitChar b]) ∨
    (∃ a b c, (1 ≤ a ∧ a ≤ 9) ∧ b ≤ 9 ∧ c ≤ 9 ∧ v.toNat = 10 * (10 * a + b) + c ∧
      numeral v = [digitChar a, digitChar b, digitChar c]) := by
  have hv := v.isLt
  by_cases h10 : v.toNat < 10
  · exact .inl ⟨_, by omega, rfl, if_pos h10⟩
  by_cases h100 : v.toNat < 100
  · exact .inr (.inl ⟨_, _, by omega, by omega, by omega, (if_neg h10).trans (if_pos h100)⟩)
  · exact .inr (.inr ⟨_, _, _, by omega, by omega, by omega, by omega, (if_neg h10).trans (if_neg h100)⟩)

theorem length_numeral (v : Byte) : 1 ≤ (numeral v).length ∧ (numeral v).length ≤ 3 := by
  rcases numeral_cases v with ⟨a, -, -, hn⟩ | ⟨a, b, -, -, -, hn⟩ | ⟨a, b, c, -, -, -, -, hn⟩
  all_goals simp [hn]

theorem numeral_mem_isDigit (v : Byte) : ∀ d ∈ numeral v, 48 ≤ d.toNat ∧ d.toNat ≤ 57 := by
  have digit {a : Nat} (ha : a ≤ 9) : 48 ≤ (digitChar a).toNat ∧ (digitChar a).toNat ≤ 57 := by
    rw [digitChar_toNat ha]
    omega
  rcases numeral_cases v with ⟨a, ha, -, hn⟩ | ⟨a, b, ha, hb, -, hn⟩ | ⟨a, b, c, ha, hb, hc, -, hn⟩
  · simpa [hn] using digit ha
  · simpa [hn] using ⟨digit ha.2, digit hb⟩
  · simpa [hn] using ⟨digit ha.2, digit hb, digit hc⟩

/-- Read back in base ten, the numeral gives the byte's number. -/
theorem numeral_value (v : Byte) : (numeral v).foldl (fun n d => 10 * n + (d.toNat - 48)) 0 = v.toNat := by
  rcases numeral_cases v with ⟨a, ha, hv, hn⟩ | ⟨a, b, ha, hb, hv, hn⟩ | ⟨a, b, c, ha, hb, hc, hv, hn⟩
  · simp [hn, hv, digitChar_toNat ha]
  · simp [hn, hv, digitChar_toNat ha.2, digitChar_toNat hb]
  · simp [hn, hv, digitChar_toNat ha.2, digitChar_toNat hb, digitChar_toNat hc]

theorem numeral_head_ne_zero_char (v : Byte) (h : 1 < (numeral v).length) : (numeral v).head? ≠ some 48 := by
  rcases numeral_cases v with ⟨a, -, -, hn⟩ | ⟨a, b, ha, -, -, hn⟩ | ⟨a, b, c, ha, -, -, -, hn⟩
  · simp [hn] at h
  · simpa [hn] using digitChar_ne_zero_char ha.1 ha.2
  · simpa [hn] using digitChar_ne_zero_char ha.1 ha.2

theorem State.render_emit (s : State) (v : Byte) : (s.emit v).render = s.render ++ renderLine v := by
  rw [State.render, State.emit_out, List.flatMap_append, List.flatMap_singleton, State.render]

/-! ## The statements -/

/-- Settles O35: the digits before the line feed are the numeral's. -/
theorem outputLinesAreDecimalNumerals : Obligations.OutputLinesAreDecimalNumerals := by
  refine ⟨fun v => ?_, State.render_emit⟩
  obtain ⟨hpos, hle⟩ := length_numeral v
  exact ⟨numeral v, rfl, hpos, hle, numeral_mem_isDigit v, numeral_value v, numeral_head_ne_zero_char v⟩

/-- Settles O38: LDI's state is the one with the register set and `pc` advanced; R7 is the stack pointer. -/
theorem ldiLoadsTheImmediate : Obligations.LdiLoadsTheImmediate := by
  intro s b imm r h
  have hset : (s.setReg r imm).reg r = imm := State.reg_setReg_self s r imm
  refine ⟨_, exec_ldi_of_names s h imm, hset, ?_, fun j hj => ?_, rfl, fun _ => rfl, rfl, rfl, rfl, rfl⟩
  · rintro rfl
    exact hset
  · exact State.reg_setReg_ne s (List.ne_of_not_mem_cons hj) imm

/-- Settles O39: PRN's state is the one with the register's value emitted and `pc` advanced. -/
theorem prnEmitsTheRegister : Obligations.PrnEmitsTheRegister := by
  intro s b r h
  exact ⟨_, exec_prn_of_names s h, rfl, rfl, fun _ _ => rfl, fun _ => rfl, rfl, rfl, rfl⟩

end Sys2Proof.Machine
end

section
/-! PROOFS. The ALU and its four instructions (42_alu.md): each operation as arithmetic on numbers, the frame of a register
write, and what an ALU instruction leaves when the ALU succeeds and when it raises. -/

namespace Sys2Proof.Machine

/-! ## The operations as arithmetic on numbers -/

theorem aluAdd_toNat (u v : Byte) : (aluAdd u v).toNat = (u.toNat + v.toNat) % 256 := by
  rw [aluAdd, BitVec.toNat_ofNat, Nat.mod_mod]

theorem aluMul_toNat (u v : Byte) : (aluMul u v).toNat = (u.toNat * v.toNat) % 256 := by
  rw [aluMul, BitVec.toNat_ofNat, Nat.mod_mod]

/-- The difference's remainder is never negative, so that it is the byte's number as it stands (R102). -/
theorem aluSub_toNat (u v : Byte) : ((aluSub u v).toNat : Int) = ((u.toNat : Int) - (v.toNat : Int)) % 256 := by
  rw [aluSub, BitVec.toNat_ofInt]
  omega

/-- A smaller first operand: the difference wraps once (R102). -/
theorem aluSub_toNat_of_lt {u v : Byte} (h : u.toNat < v.toNat) : (aluSub u v).toNat = u.toNat + 256 - v.toNat := by
  have hsub := aluSub_toNat u v
  have hv := v.isLt
  omega

/-- A quotient is no larger than its dividend, so that it always fits a byte (R104). -/
theorem aluDiv_toNat (u v : Byte) : (aluDiv u v).toNat = u.toNat / v.toNat := by
  have hle : u.toNat / v.toNat < 2 ^ 8 := (Nat.div_le_self _ _).trans_lt u.isLt
  rw [aluDiv, BitVec.toNat_ofNat, Nat.mod_eq_of_lt hle]

/-! ## DIV's own check -/

theorem State.aluApply_div_of_zero {s : State} (a : Fin 8) {b : Fin 8} (h : s.reg b = 0) :
    s.aluApply .div a b = .error ⟨.divisionByZero, (b.val : Int)⟩ := if_pos h

theorem State.aluApply_div_of_ne_zero {s : State} (a : Fin 8) {b : Fin 8} (h : s.reg b ≠ 0) :
    s.aluApply .div a b = .ok (s.setReg a (aluDiv (s.reg a) (s.reg b))) := if_neg h

/-! ## What a register write leaves unchanged -/

theorem State.sameRegsExcept_setReg (s : State) (r : Fin 8) (v : Byte) : s.SameRegsExcept (s.setReg r v) [r] :=
  fun _ hj => State.reg_setReg_ne s (List.ne_of_not_mem_cons hj) v

theorem State.setReg_frame (s : State) (r : Fin 8) (v : Byte) :
    s.SameRegsExcept (s.setReg r v) [r] ∧ (s.setReg r v).pc = s.pc ∧ s.SameMem (s.setReg r v) ∧
      (s.setReg r v).out = s.out ∧ s.SameControl (s.setReg r v) :=
  ⟨s.sameRegsExcept_setReg r v, rfl, fun _ => rfl, rfl, rfl, rfl, rfl⟩

/-! ## The shared form of the ALU instructions -/

/-- When the ALU writes a result, the instruction leaves that write and the advance of `pc`, and nothing else (R106). -/
theorem State.aluInstr_of_apply_ok {s : State} {op : AluSelector} {p q v : Byte} {a b : Fin 8} (hp : NamesReg p a)
    (hq : NamesReg q b) (h : s.aluApply op a b = .ok (s.setReg a v)) :
    ∃ t, s.aluInstr op p q = .next t ∧ t.reg a = v ∧ s.SameRegsExcept t [a] ∧ t.pc = s.pc + 3 ∧ s.SameMem t ∧
      t.out = s.out ∧ s.SameControl t := by
  refine ⟨(s.setReg a v).advance 3, ?_, State.reg_setReg_self s a v, s.sameRegsExcept_setReg a v, rfl, fun _ => rfl,
    rfl, rfl, rfl, rfl⟩
  rw [State.aluInstr_ok hp hq, h]
  rfl

/-- When the ALU raises, the instruction takes that fault and does not advance (R106). -/
theorem State.aluInstr_of_apply_error {s : State} {op : AluSelector} {p q : Byte} {a b : Fin 8} {r : Raised}
    (hp : NamesReg p a) (hq : NamesReg q b) (h : s.aluApply op a b = .error r) :
    s.aluInstr op p q = .next (s.takeFault r.cause r.info) := by
  rw [State.aluInstr_ok hp hq, h]
  rfl

/-! ## SUB's row -/

/-- A decoded instruction's row is in force, and SUB's is not without HAS_SUBDIV (R57). -/
theorem decode_ne_sub_of_not_hasSubdiv {c : Config} (hc : c.hasSubdiv = false) (bytes : List Byte) (a b : Byte) :
    decode c bytes ≠ .ok (.sub a b) := by
  intro hd
  obtain ⟨hforce, -⟩ := decodedBytesAreTheEncoding c bytes (.sub a b) hd
  simp [Instr.inForce, Instr.optional, hc] at hforce

/-! ## The statements -/

/-- Settles O40: the ALU's ADD always writes, and its byte is the sum modulo 256. -/
theorem addWritesTheSumModulo256 : Obligations.AddWritesTheSumModulo256 := by
  intro s p q a b hp hq
  obtain ⟨t, hexec, hval, hframe⟩ := State.aluInstr_of_apply_ok (s := s) (op := .add) hp hq rfl
  exact ⟨t, hexec, hval ▸ aluAdd_toNat _ _, hframe⟩

/-- Settles O41: the ALU's MUL always writes, and its byte is the product modulo 256. -/
theorem mulWritesTheProductModulo256 : Obligations.MulWritesTheProductModulo256 := by
  intro s p q a b hp hq
  obtain ⟨t, hexec, hval, hframe⟩ := State.aluInstr_of_apply_ok (s := s) (op := .mul) hp hq rfl
  exact ⟨t, hexec, hval ▸ aluMul_toNat _ _, hframe⟩

/-- Settles O42: the ALU's SUB always writes, and its byte is the difference's remainder. -/
theorem subWritesTheDifferenceModulo256 : Obligations.SubWritesTheDifferenceModulo256 := by
  intro s p q a b hp hq
  obtain ⟨t, hexec, hval, hframe⟩ := State.aluInstr_of_apply_ok (s := s) (op := .sub) hp hq rfl
  exact ⟨t, hexec, hval ▸ aluSub_toNat _ _, hframe⟩

/-- Settles O43: a divisor that is not 0 passes DIV's check, and the quotient fits a byte. -/
theorem divWritesTheUnsignedQuotient : Obligations.DivWritesTheUnsignedQuotient := by
  intro s p q a b hp hq hb
  obtain ⟨t, hexec, hval, hframe⟩ := State.aluInstr_of_apply_ok hp hq (State.aluApply_div_of_ne_zero a hb)
  exact ⟨t, hexec, hval ▸ aluDiv_toNat _ _, hframe⟩

/-- Settles O44: the ALU raises on a zero divisor, and the instruction takes what the ALU raised. -/
theorem divByZeroTakesDivisionByZero : Obligations.DivByZeroTakesDivisionByZero := by
  intro s p q a b hp hq hb
  exact State.aluInstr_of_apply_error hp hq (State.aluApply_div_of_zero a hb)

/-- Settles O45: each of the three operations is one register write of its byte. -/
theorem aluAddSubMulAreModulo256 : Obligations.AluAddSubMulAreModulo256 := by
  refine ⟨fun s a b => ⟨⟨_, rfl, ?_, s.setReg_frame a _⟩, ⟨_, rfl, ?_, fun hlt => ?_, s.setReg_frame a _⟩,
    ⟨_, rfl, ?_, s.setReg_frame a _⟩⟩, fun c bytes a b hc => decode_ne_sub_of_not_hasSubdiv hc bytes a b⟩
  · rw [State.reg_setReg_self, aluAdd_toNat]
  · rw [State.reg_setReg_self, aluSub_toNat]
  · rw [State.reg_setReg_self, aluSub_toNat_of_lt hlt]
  · rw [State.reg_setReg_self, aluMul_toNat]

/-- Settles O46: DIV by its check on the divisor; a selector outside the four has no operation to do. -/
theorem aluDivAndUnsupportedSelectors : Obligations.AluDivAndUnsupportedSelectors := by
  refine fun s a b => ⟨State.aluApply_div_of_zero a, fun hb => ?_, fun code => ⟨rfl, rfl⟩⟩
  refine ⟨_, State.aluApply_div_of_ne_zero a hb, ?_, s.setReg_frame a _⟩
  rw [State.reg_setReg_self, aluDiv_toNat]

end Sys2Proof.Machine
end

section
/-! PROOFS. The stack (43_stack.md): the two primitives as numbers, PUSH and POP on a legal operand, then what a row of
pushes stores and what a row of pops loads, each by induction on its operand bytes. -/

namespace Sys2Proof.Machine

/-! ## The stack pointer as a number -/

theorem State.sp_toNat_ne_zero {s : State} (h : s.sp ≠ 0) : s.sp.toNat ≠ 0 :=
  fun h0 => h (BitVec.eq_of_toNat_eq h0)

/-- Above 0 the decrement does not wrap (R120). -/
theorem State.pushAddr_eq {s : State} (h : s.sp ≠ 0) : s.pushAddr = s.sp.toNat - 1 := by
  have hpos := State.sp_toNat_ne_zero h
  have hlt := s.sp.isLt
  have hone : (1 : Byte).toNat = 1 := rfl
  rw [State.pushAddr, BitVec.toNat_sub, hone]
  omega

theorem State.pushed_sp_toNat {s : State} (h : s.sp ≠ 0) (v : Byte) : (s.pushed v).sp.toNat = s.sp.toNat - 1 := by
  rw [State.pushed_sp]
  exact State.pushAddr_eq h

/-- Below the limit the increment does not wrap (R121). -/
theorem State.popped_sp_toNat {s : State} (h : s.sp.toNat < 0xF4) : s.popped.sp.toNat = s.sp.toNat + 1 := by
  have hone : (1 : Byte).toNat = 1 := rfl
  rw [State.popped_sp, BitVec.toNat_add, hone]
  omega

/-- The register a POP loads, when it is not R7, leaves the increment. -/
theorem State.popped_setReg_sp_toNat {s : State} {r : Fin 8} (h7 : r ≠ 7) (h : s.sp.toNat < 0xF4) (v : Byte) :
    (s.popped.setReg r v).sp.toNat = s.sp.toNat + 1 := by
  rw [State.sp_setReg, if_neg (Ne.symm h7)]
  exact State.popped_sp_toNat h

/-! ## PUSH, POP and RET on a legal operand -/

theorem NamesReg.ne_seven {b : Byte} {r : Fin 8} (h : NamesReg b r) (hb : b.toNat < 7) : r ≠ 7 := by
  rintro rfl
  exact absurd h (Nat.ne_of_lt hb)

section
variable {s : State} {b : Byte} {r : Fin 8}

theorem exec_push_ok (hr : NamesReg b r) (hsp : s.sp ≠ 0) :
    exec (.push b) s = .next ((s.pushed (s.reg r)).advance 2) := by
  simp [exec, execPush, regIndex_names hr, State.push_ok _ hsp]

theorem exec_push_empty (hr : NamesReg b r) (hsp : s.sp = 0) :
    exec (.push b) s = .next (s.takeFault .memoryFault (-1)) := by
  simp [exec, execPush, regIndex_names hr, State.push_empty _ hsp]

theorem exec_pop_ok (hr : NamesReg b r) (hsp : s.sp.toNat < 0xF4) :
    exec (.pop b) s = .next ((s.popped.setReg r (s.mem.read s.sp.toNat)).advance 2) := by
  simp [exec, execPop, regIndex_names hr, State.pop_ok (BitVec.lt_def.2 hsp)]

theorem exec_pop_underflow (hr : NamesReg b r) (hsp : 0xF4 ≤ s.sp.toNat) :
    exec (.pop b) s = .next (s.takeFault .stackUnderflow s.sp.toNat) := by
  simp [exec, execPop, regIndex_names hr, State.pop_underflow (BitVec.le_def.2 hsp)]

theorem exec_ret_underflow (hsp : 0xF4 ≤ s.sp.toNat) :
    exec .ret s = .next (s.takeFault .stackUnderflow s.sp.toNat) := by
  simp [exec, execRet, State.pop_underflow (BitVec.le_def.2 hsp)]

end

theorem State.sameRegsExcept_pushed (s : State) (v : Byte) : s.SameRegsExcept (s.pushed v) [7] :=
  fun _ hj => s.pushed_reg_ne v (List.ne_of_not_mem_cons hj)

theorem State.sameRegsExcept_popped (s : State) : s.SameRegsExcept s.popped [7] :=
  fun _ hj => s.popped_reg_ne (List.ne_of_not_mem_cons hj)

/-! ## One push, one pop -/

/-- Settles O47: the failing push raises before the decrement; the succeeding one leaves the pushed state. -/
theorem pushPrimitiveDecrementsThenWrites : Obligations.PushPrimitiveDecrementsThenWrites := by
  refine fun s v hm => ⟨fun hsp => ?_, fun hsp => ?_⟩
  · have hpush : s.push v = .error ⟨.memoryFault, -1⟩ := State.push_empty v hsp
    exact ⟨hpush, s.takeFault .memoryFault (-1), by rw [hpush, State.settle_error], hsp, rfl⟩
  · have hdec : (s.pushed v).sp.toNat = s.sp.toNat - 1 := State.pushed_sp_toNat hsp v
    have haddr : (s.pushed v).sp.toNat = s.pushAddr := hdec.trans (State.pushAddr_eq hsp).symm
    have hlt := s.sp.isLt
    exact ⟨s.pushed v, State.push_ok v hsp, hdec, by omega, State.pushed_read_sp hm v,
      haddr ▸ State.sameMemExcept_of_pushed hm rfl, s.sameRegsExcept_pushed v, rfl, rfl, rfl, rfl, rfl⟩

/-- Settles O48: the limit's two sides; below it the increment cannot wrap. -/
theorem popPrimitiveReadsThenIncrements : Obligations.PopPrimitiveReadsThenIncrements := by
  refine fun s => ⟨fun hsp => State.pop_underflow (BitVec.le_def.2 hsp), fun hsp => ?_⟩
  have hinc : (s.popped.reg 7).toNat = s.sp.toNat + 1 := State.popped_sp_toNat hsp
  exact ⟨s.popped, State.pop_ok (BitVec.lt_def.2 hsp), hinc, by omega, s.sameRegsExcept_popped, rfl, fun _ => rfl,
    rfl, rfl, rfl, rfl⟩

/-- Settles O49: PUSH leaves the pushed state with `pc` advanced, and the pushed byte is the register's old value. -/
theorem pushStoresTheRegister : Obligations.PushStoresTheRegister := by
  intro s b r hr hm hsp
  exact ⟨_, exec_push_ok hr hsp, Memory.read_write_self hm _ _, State.sameMemExcept_of_pushed hm rfl,
    State.pushAddr_eq hsp, s.pushed_sp (s.reg r), s.sameRegsExcept_pushed (s.reg r), rfl, rfl, rfl, rfl, rfl⟩

/-- Settles O50: the push raises, and PUSH takes what it raised. -/
theorem pushAtZeroTakesMemoryFault : Obligations.PushAtZeroTakesMemoryFault :=
  fun _ _ _ hr hsp => exec_push_empty hr hsp

/-- Settles O51: the register write comes after the increment, so that it decides R7 when POP names it. -/
theorem popLoadsTheRegister : Obligations.PopLoadsTheRegister := by
  intro s b r hr hsp
  refine ⟨_, exec_pop_ok hr hsp, State.reg_setReg_self _ r _, fun h7 => ?_, fun j hj => ?_, rfl, fun _ => rfl, rfl,
    rfl, rfl, rfl⟩
  · rw [State.advance_reg, State.reg_setReg_ne _ (Ne.symm h7), State.reg_seven, State.popped_sp]
  · obtain ⟨hj7, hjr⟩ : j ≠ 7 ∧ j ≠ r := by simpa using hj
    rw [State.advance_reg, State.reg_setReg_ne _ hjr, State.popped_reg_ne hj7]

/-- Settles O52: both instructions take what the pop raised. -/
theorem popAndRetUnderflow : Obligations.PopAndRetUnderflow :=
  fun _ _ _ hsp => ⟨fun hr => exec_pop_underflow hr hsp, exec_ret_underflow hsp⟩

/-- Settles O56: the POP reads the cell the PUSH wrote and undoes its decrement. -/
theorem pushThenPopMovesTheValue : Obligations.PushThenPopMovesTheValue := by
  intro s b b2 r r2 hr hr2 h7 hm hsp hle
  obtain ⟨t, hpush, hcell, -, haddr, ht7, htregs, htpc, htout, htrun, htfault, htcfg⟩ :=
    pushStoresTheRegister s b r hr hm hsp
  have htsp : t.sp.toNat = s.pushAddr := congrArg BitVec.toNat ht7
  have hpos := State.sp_toNat_ne_zero hsp
  obtain ⟨u, hpop, hval, hu7, huregs, hupc, -, huout, hurun, hufault, hucfg⟩ :=
    popLoadsTheRegister t b2 r2 hr2 (by omega)
  have husp : u.sp = s.sp := by
    calc u.sp = t.reg 7 + 1 := hu7 h7
      _ = s.sp - 1 + 1 := by rw [ht7]
      _ = s.sp := BitVec.sub_add_cancel _ _
  refine ⟨t, u, hpush, hpop, ?_, husp, fun j hj => ?_, ?_, huout.trans htout, hurun.trans htrun,
    hufault.trans htfault, hucfg.trans htcfg⟩
  · rw [hval, htsp, hcell]
  · by_cases hj7 : j = 7
    · rw [hj7]
      exact husp
    · rw [huregs j (by simpa [hj7] using hj), htregs j (by simpa using hj7)]
  · rw [hupc, htpc, BitVec.add_assoc]
    rfl

/-! ## Instructions in a row -/

theorem execAll_cons_of_next {i : Instr} {s t : State} (h : exec i s = .next t) (is : List Instr) :
    execAll (i :: is) s = execAll is t := by
  simp only [execAll, h]

theorem execAll_append_of_some {is : List Instr} {s t : State} (h : execAll is s = some t) (js : List Instr) :
    execAll (is ++ js) s = execAll js t := by
  induction is generalizing s with
  | nil => rw [List.nil_append, Option.some.inj h]
  | cons i is ih =>
    obtain ⟨s', hs'⟩ := exec_total i s
    rw [execAll_cons_of_next hs'] at h
    rw [List.cons_append, execAll_cons_of_next hs', ih h]

/-! ## Pushes in a row -/

/-- What the `i`-th of several pushes in a row stores when it names `r`: the register, which is no other than at the
start, but for R7, which each push before it has decremented (R123; D14). -/
def State.pushValue (s : State) (r : Fin 8) (i : Nat) : Byte :=
  if r = 7 then s.sp - BitVec.ofNat 8 i else s.reg r

theorem State.pushValue_zero (s : State) (r : Fin 8) : s.pushValue r 0 = s.reg r := by
  by_cases h7 : r = 7
  · simp [State.pushValue, h7]
  · exact if_neg h7

/-- After one push the next one is the first: the count begins again from the decremented stack pointer. -/
theorem State.pushValue_succ {s t : State} (hsp : t.sp = s.sp - 1) (hregs : ∀ j, j ≠ 7 → t.reg j = s.reg j)
    (r : Fin 8) (i : Nat) : t.pushValue r i = s.pushValue r (i + 1) := by
  by_cases h7 : r = 7
  · have hcount : BitVec.ofNat 8 (i + 1) = 1 + BitVec.ofNat 8 i := by
      rw [Nat.add_comm, BitVec.ofNat_add]
      rfl
    simp only [State.pushValue, if_pos h7]
    rw [hsp, hcount, BitVec.sub_sub]
  · simp only [State.pushValue, if_neg h7]
    exact hregs r h7

/-- What pushes of the operand bytes `rs` leave of `s`: the cells below the old stack pointer hold the pushed values,
the first one highest; nothing at or above it changes. -/
structure AfterPushes (rs : List Byte) (s t : State) : Prop where
  run : execAll (rs.map .push) s = some t
  fault : t.fault = s.fault
  sp : t.sp.toNat = s.sp.toNat - rs.length
  regs : ∀ j, j ≠ 7 → t.reg j = s.reg j
  above : ∀ a, s.sp.toNat ≤ a → t.mem.read a = s.mem.read a
  cells : ∀ (i : Nat) (p : Byte) (r : Fin 8), rs[i]? = some p → NamesReg p r →
    t.mem.read (s.sp.toNat - 1 - i) = s.pushValue r i

theorem AfterPushes.nil (s : State) : AfterPushes [] s s :=
  ⟨rfl, rfl, rfl, fun _ _ => rfl, fun _ _ => rfl, by simp⟩

/-- A push in front of a row: its cell lies above those the row writes, so that the row leaves it. -/
theorem AfterPushes.cons {b : Byte} {r : Fin 8} {rs : List Byte} {s t : State} (hr : NamesReg b r) (hm : s.mem.wf)
    (hsp : s.sp ≠ 0) (h : AfterPushes rs ((s.pushed (s.reg r)).advance 2) t) : AfterPushes (b :: rs) s t := by
  obtain ⟨hrun, hfault, hspt, hregs, habove, hcells⟩ := h
  have haddr := State.pushAddr_eq hsp
  have hpos := State.sp_toNat_ne_zero hsp
  rw [State.advance_sp, State.pushed_sp_toNat hsp] at hspt habove hcells
  refine ⟨?_, hfault, ?_, fun j hj => ?_, fun a ha => ?_, fun i p r' hp hr' => ?_⟩
  · rw [List.map_cons, execAll_cons_of_next (exec_push_ok hr hsp), hrun]
  · rw [hspt, List.length_cons]
    omega
  · rw [hregs j hj, State.advance_reg, State.pushed_reg_ne _ hj]
  · rw [habove a (by omega)]
    exact Memory.read_write_ne hm _ (by omega)
  · cases i with
    | zero =>
      obtain rfl : b = p := by simpa using hp
      obtain rfl := hr.unique hr'
      rw [State.pushValue_zero, Nat.sub_zero, habove _ le_rfl, ← haddr]
      exact Memory.read_write_self hm _ _
    | succ i =>
      have hcell : s.sp.toNat - 1 - (i + 1) = s.sp.toNat - 1 - 1 - i := by omega
      rw [← State.pushValue_succ (s.pushed_sp (s.reg r)) (fun _ => s.pushed_reg_ne (s.reg r)), hcell]
      exact hcells i p r' (by simpa using hp) hr'

/-- A row of pushes completes when the stack pointer is at least its length (R120). -/
theorem exists_afterPushes {rs : List Byte} {s : State} (hrs : ∀ b ∈ rs, b.toNat < 8) (hm : s.mem.wf)
    (hsp : rs.length ≤ s.sp.toNat) : ∃ t, AfterPushes rs s t := by
  induction rs generalizing s with
  | nil => exact ⟨s, .nil s⟩
  | cons b rs ih =>
    obtain ⟨hb, hrs⟩ := List.forall_mem_cons.1 hrs
    rw [List.length_cons] at hsp
    obtain ⟨r, hr⟩ : ∃ r, NamesReg b r := ⟨⟨b.toNat, hb⟩, rfl⟩
    have hpos : s.sp ≠ 0 := fun h0 => by simp [h0] at hsp
    obtain ⟨t, ht⟩ := ih (s := (s.pushed (s.reg r)).advance 2) hrs (State.pushed_wf hm _)
      (by rw [State.advance_sp, State.pushed_sp_toNat hpos]; omega)
    exact ⟨t, .cons hr hm hpos ht⟩

/-! ## Pops in a row -/

/-- What pops of the operand bytes `qs` leave of `s`: memory and the registers no byte names are as before, and the
`k`-th register, if none is named twice, holds the cell `k` above the old stack pointer. -/
structure AfterPops (qs : List Byte) (s t : State) : Prop where
  run : execAll (qs.map .pop) s = some t
  fault : t.fault = s.fault
  mem : t.mem = s.mem
  sp : t.sp.toNat = s.sp.toNat + qs.length
  regs : ∀ j, j ≠ 7 → (∀ b ∈ qs, ¬ NamesReg b j) → t.reg j = s.reg j
  loaded : qs.Nodup → ∀ (k : Nat) (q : Byte) (d : Fin 8), qs[k]? = some q → NamesReg q d →
    t.reg d = s.mem.read (s.sp.toNat + k)

theorem AfterPops.nil (s : State) : AfterPops [] s s :=
  ⟨rfl, rfl, rfl, rfl, fun _ _ _ => rfl, by simp⟩

/-- A pop in front of a row: the row leaves the loaded register when it names it no more. -/
theorem AfterPops.cons {b : Byte} {r : Fin 8} {qs : List Byte} {s t : State} (hr : NamesReg b r) (h7 : r ≠ 7)
    (hsp : s.sp.toNat < 0xF4) (h : AfterPops qs ((s.popped.setReg r (s.mem.read s.sp.toNat)).advance 2) t) :
    AfterPops (b :: qs) s t := by
  obtain ⟨hrun, hfault, hmem, hspt, hregs, hloaded⟩ := h
  rw [State.advance_sp, State.popped_setReg_sp_toNat h7 hsp] at hspt hloaded
  refine ⟨?_, hfault, hmem, ?_, fun j hj7 hj => ?_, fun hnd k q d hq hd => ?_⟩
  · rw [List.map_cons, execAll_cons_of_next (exec_pop_ok hr hsp), hrun]
  · rw [hspt, List.length_cons]
    omega
  · obtain ⟨hb, hqs⟩ := List.forall_mem_cons.1 hj
    have hjr : j ≠ r := fun e => hb (e ▸ hr)
    rw [hregs j hj7 hqs, State.advance_reg, State.reg_setReg_ne _ hjr, State.popped_reg_ne hj7]
  · obtain ⟨hnot, hnd⟩ := List.nodup_cons.1 hnd
    cases k with
    | zero =>
      obtain rfl : b = q := by simpa using hq
      obtain rfl := hr.unique hd
      have hagain : ∀ b' ∈ qs, ¬ NamesReg b' r := fun b' hmem hb' =>
        hnot (BitVec.eq_of_toNat_eq (hb'.trans hr.symm) ▸ hmem)
      rw [hregs r h7 hagain, State.advance_reg, State.reg_setReg_self, Nat.add_zero]
    | succ k =>
      rw [hloaded hnd k q d (by simpa using hq) hd, Nat.add_right_comm, Nat.add_assoc]
      rfl

/-- A row of pops, none into R7, completes when it ends at or below the limit (R121). -/
theorem exists_afterPops {qs : List Byte} {s : State} (hqs : ∀ b ∈ qs, b.toNat < 7)
    (hsp : s.sp.toNat + qs.length ≤ 0xF4) : ∃ t, AfterPops qs s t := by
  induction qs generalizing s with
  | nil => exact ⟨s, .nil s⟩
  | cons b qs ih =>
    obtain ⟨hb, hqs⟩ := List.forall_mem_cons.1 hqs
    rw [List.length_cons] at hsp
    have hlt : s.sp.toNat < 0xF4 := by omega
    obtain ⟨r, hr⟩ : ∃ r, NamesReg b r := ⟨⟨b.toNat, by omega⟩, rfl⟩
    have h7 : r ≠ 7 := hr.ne_seven hb
    obtain ⟨t, ht⟩ := ih (s := (s.popped.setReg r (s.mem.read s.sp.toNat)).advance 2) hqs
      (by rw [State.advance_sp, State.popped_setReg_sp_toNat h7 hlt]; omega)
    exact ⟨t, .cons hr h7 hlt ht⟩

/-! ## Pushes, then no more pops than pushes -/

/-- What a row of pushes and then a row of at most as many pops leave of `s`. -/
structure AfterPushesPops (rs qs : List Byte) (s u : State) : Prop where
  run : execAll (rs.map .push ++ qs.map .pop) s = some u
  fault : u.fault = s.fault
  sp : u.sp.toNat = s.sp.toNat - rs.length + qs.length
  regs : ∀ j, j ≠ 7 → (∀ b ∈ qs, ¬ NamesReg b j) → u.reg j = s.reg j
  cells : ∀ (i : Nat) (p : Byte) (r : Fin 8), rs[i]? = some p → NamesReg p r →
    u.mem.read (s.sp.toNat - 1 - i) = s.pushValue r i
  /-- Last in, first out (R126 b). -/
  loaded : qs.Nodup → ∀ (k : Nat) (p q : Byte) (r d : Fin 8), qs[k]? = some q →
    rs[rs.length - 1 - k]? = some p → NamesReg p r → NamesReg q d → u.reg d = s.pushValue r (rs.length - 1 - k)

theorem exists_afterPushesPops {rs qs : List Byte} {s : State} (hlen : qs.length ≤ rs.length)
    (hrs : ∀ b ∈ rs, b.toNat < 8) (hqs : ∀ b ∈ qs, b.toNat < 7) (hm : s.mem.wf) (hsp : rs.length ≤ s.sp.toNat)
    (hle : s.sp.toNat ≤ 0xF4) : ∃ u, AfterPushesPops rs qs s u := by
  obtain ⟨t, hpush⟩ := exists_afterPushes hrs hm hsp
  have hspt := hpush.sp
  obtain ⟨u, hpop⟩ := exists_afterPops (s := t) hqs (by omega)
  refine ⟨u, ?_, hpop.fault.trans hpush.fault, ?_, fun j hj7 hj => ?_, ?_, ?_⟩
  · rw [execAll_append_of_some hpush.run, hpop.run]
  · rw [hpop.sp, hspt]
  · rw [hpop.regs j hj7 hj, hpush.regs j hj7]
  · rw [hpop.mem]
    exact hpush.cells
  · intro hnd k p q r d hq hp hr hd
    have hk : k < qs.length := (List.getElem?_eq_some_iff.1 hq).1
    have haddr : t.sp.toNat + k = s.sp.toNat - 1 - (rs.length - 1 - k) := by omega
    rw [hpop.loaded hnd k q d hq hd, haddr, hpush.cells _ p r hp hr]

/-- Settles O57: as many pops as pushes bring the stack pointer back. -/
theorem pushesThenPopsRestoreTheStackPointer : Obligations.PushesThenPopsRestoreTheStackPointer := by
  intro s rs qs hlen hrs hqs hm hsp hle
  obtain ⟨u, hu⟩ := exists_afterPushesPops hlen.ge hrs hqs hm hsp hle
  have husp : u.sp = s.sp := BitVec.eq_of_toNat_eq (by rw [hu.sp]; omega)
  refine ⟨u, hu.run, hu.fault, husp, fun j hj => ?_, hu.loaded⟩
  by_cases hj7 : j = 7
  · rw [hj7]
    exact husp
  · exact hu.regs j hj7 hj

/-- Settles O59: after all pops but the last the stack pointer is at the cell of the first push, which POP R7 loads. -/
theorem pushesThenPopsEndingInR7 : Obligations.PushesThenPopsEndingInR7 := by
  intro s rs qs hlen hrs hqs hm hsp hle
  obtain ⟨t, ht⟩ := exists_afterPushesPops (by omega) hrs hqs hm hsp hle
  have htsp : t.sp.toNat = s.sp.toNat - 1 - 0 := by rw [ht.sp]; omega
  obtain ⟨u, hpop, hval, -, huregs, -, -, -, -, hufault, -⟩ := popLoadsTheRegister t 7 7 rfl (by omega)
  have huother : ∀ j, j ≠ 7 → u.reg j = t.reg j := fun j hj => huregs j (by simpa using hj)
  refine ⟨u, ?_, hufault.trans ht.fault, fun p r hp hr => ?_, fun j hj7 hj => ?_, ?_⟩
  · rw [← List.append_assoc, execAll_append_of_some ht.run, execAll_cons_of_next hpop, execAll]
  · calc u.sp = t.mem.read t.sp.toNat := hval
      _ = s.pushValue r 0 := by rw [htsp, ht.cells 0 p r hp hr]
      _ = s.reg r := s.pushValue_zero r
  · rw [huother j hj7, ht.regs j hj7 hj]
  · intro hnd k p q r d hq hp hr hd
    have hd7 : d ≠ 7 := hd.ne_seven (hqs q (List.mem_of_getElem? hq))
    rw [huother d hd7]
    exact ht.loaded hnd k p q r d hq hp hr hd

end Sys2Proof.Machine
end

section
/-! PROOFS. CALL and RET (44_call_return.md): what each does on a legal operand and how CALL faults, then that a RET at
the called address undoes the CALL. -/

namespace Sys2Proof.Machine

/-! ## CALL and RET, one by one -/

section
variable {s : State} {b : Byte} {r : Fin 8}

theorem exec_call_ok {v : Byte} (hr : NamesReg b r) (hv : s.returnAddress = .ok v) (hsp : s.sp ≠ 0) :
    exec (.call b) s = .next ((s.pushed v).jump (zext9 ((s.pushed v).reg r))) := by
  simp [exec, execCall, regIndex_names hr, hv, State.push_ok v hsp]

/-- The return address is checked before the push (R135), so the stack pointer does not matter. -/
theorem exec_call_no_return_address (hr : NamesReg b r) (hpc : 253 < s.pc.toNat) :
    exec (.call b) s = .next (s.takeFault .memoryFault (s.pc.toNat + 2)) := by
  simp [exec, execCall, regIndex_names hr, State.returnAddress_bad hpc]

theorem exec_call_empty (hr : NamesReg b r) (hpc : s.pc.toNat ≤ 253) (hsp : s.sp = 0) :
    exec (.call b) s = .next (s.takeFault .memoryFault (-1)) := by
  simp [exec, execCall, regIndex_names hr, State.returnAddress_ok hpc, State.push_empty _ hsp]

theorem exec_ret_ok (hsp : s.sp.toNat < 0xF4) :
    exec .ret s = .next (s.popped.jump (zext9 (s.mem.read s.sp.toNat))) := by
  simp [exec, execRet, State.pop_ok (BitVec.lt_def.2 hsp)]

end

/-- Up to 253 the return address fits a byte (R135, D12). -/
theorem State.exists_returnAddress {s : State} (hpc : s.pc.toNat ≤ 253) :
    ∃ v, s.returnAddress = .ok v ∧ v.toNat = s.pc.toNat + 2 := by
  refine ⟨_, State.returnAddress_ok hpc, ?_⟩
  rw [BitVec.toNat_ofNat]
  omega

/-- Settles O53: CALL leaves the state with the return address pushed, `pc` jumped to what the register then holds. -/
theorem callPushesTheReturnAddressAndJumps : Obligations.CallPushesTheReturnAddressAndJumps := by
  intro s b r hr hm hsp hpc
  obtain ⟨v, hv, hval⟩ := State.exists_returnAddress hpc
  have hcell : (s.pushed v).mem.read s.pushAddr = v := Memory.read_write_self hm s.pushAddr v
  refine ⟨_, exec_call_ok hr hv hsp, (congrArg BitVec.toNat hcell).trans hval, State.sameMemExcept_of_pushed hm rfl,
    s.pushed_sp v, s.sameRegsExcept_pushed v, ?_, rfl, rfl, rfl, rfl⟩
  rw [State.jump_pc, zext9_toNat, State.pushed_reg]

/-- Settles O54: CALL takes what its first failing check raises, the return address before the push. -/
theorem callFaults : Obligations.CallFaults :=
  fun _ _ _ hr => ⟨fun hpc => exec_call_no_return_address hr hpc, fun hpc hsp => exec_call_empty hr hpc hsp⟩

/-- Settles O55: RET leaves the popped state with `pc` jumped to the byte the stack pointer points to. -/
theorem retPopsIntoPc : Obligations.RetPopsIntoPc :=
  fun s hsp => ⟨_, exec_ret_ok hsp, zext9_toNat _, s.popped_sp, s.sameRegsExcept_popped, fun _ => rfl, rfl, rfl, rfl,
    rfl⟩

/-! ## A CALL, then the RET it jumps to -/

/-- A row without operands is decoded from its opcode byte alone (R51). -/
theorem decodeFrom_of_no_operands {c : Config} {read : Nat → Option Byte} {op : Byte} {m : Mnemonic}
    (h0 : read 0 = some op) (hl : c.lookup op = some m) (hcount : m.format.operandCount = 0) :
    decodeFrom c read = .ok (m.build 0 0) := by
  simp only [decodeFrom, h0, hl, hcount]

/-- RET's row is in force in every configuration (R56). -/
theorem lookup_opcodeOf_ret {c : Config} (hc : c.wf) : c.lookup (c.opcodeOf .ret) = some .ret :=
  Config.lookup_opcodeOf hc ((Config.mem_mnemonics .ret).2 (.inl ⟨by decide, by decide⟩))

/-- Where RET's opcode byte stands at `pc`, the step is RET's meaning. -/
theorem step_of_ret_opcode {s : State} (hs : s.status = .running) (hc : s.cfg.wf) (hpc : s.pc.toNat ≤ 255)
    (hop : s.mem.read s.pc.toNat = s.cfg.opcodeOf .ret) : step s = exec .ret s := by
  have h0 : s.fetchByte 0 = some (s.cfg.opcodeOf .ret) := by rw [State.fetchByte_zero hpc, hop]
  have hd : decodeFrom s.cfg s.fetchByte = .ok .ret := decodeFrom_of_no_operands h0 (lookup_opcodeOf_ret hc) rfl
  exact step_of_decode_ok hs (s.decode_window.trans hd)

/-- Settles O58: the RET's byte is not the pushed one, so RET is fetched; it pops what the CALL pushed and undoes its
decrement. -/
theorem callThenRetReturns : Obligations.CallThenRetReturns := by
  intro s b r hs hm hc hcur hr h7 hpc hsp hle hret hne
  obtain ⟨t, hcall, hcell, htmem, ht7, htregs, htpc, htout, htrun, htfault, htcfg⟩ :=
    callPushesTheReturnAddressAndJumps s b r hr hm hsp hpc
  have hstep : step s = .next t := (step_of_decode_ok hs (State.current_eq_some.1 hcur)).trans hcall
  have htsp : t.sp.toNat = s.pushAddr := congrArg BitVec.toNat ht7
  have haddr : s.pushAddr = s.sp.toNat - 1 := State.pushAddr_eq hsp
  have hpos : s.sp.toNat ≠ 0 := State.sp_toNat_ne_zero hsp
  have htarget : t.pc.toNat = (s.reg r).toNat := by rw [htpc, if_neg h7]
  have htop : t.mem.read t.pc.toNat = t.cfg.opcodeOf .ret := by rw [htarget, htmem _ hne.symm, hret, htcfg]
  have htrunning : t.status = .running := by
    rw [State.status_running, htfault, htrun]
    exact State.status_running.1 hs
  obtain ⟨u, hexec, hupc, hu7, huregs, humem, huout, hurun, hufault, hucfg⟩ := retPopsIntoPc t (by omega)
  have hret_step : step t = .next u :=
    (step_of_ret_opcode htrunning (htcfg ▸ hc) (htarget ▸ Nat.le_of_lt_succ (s.reg r).isLt) htop).trans hexec
  refine ⟨t, u, hstep, hret_step, ?_, fun j _ => ?_,
    ⟨hurun.trans htrun, hufault.trans htfault, hucfg.trans htcfg⟩, huout.trans htout,
    fun a ha => (humem a).trans (htmem a ha)⟩
  · rw [hupc, htsp, hcell]
  · by_cases hj7 : j = 7
    · calc u.reg j = t.reg 7 + 1 := by rw [hj7, hu7, State.reg_seven]
        _ = s.sp - 1 + 1 := by rw [ht7]
        _ = s.reg j := by rw [hj7, State.reg_seven, BitVec.sub_add_cancel]
    · rw [huregs j (by simpa using hj7), htregs j (by simpa using hj7)]

end Sys2Proof.Machine
end

section
/-! PROOFS. Faults (60_exceptions.md): what taking a fault leaves, that only a raise leaves a record, and that an
instruction raises exactly when one of its checks fails. -/

namespace Sys2Proof.Machine

/-! ## The record and the status -/

theorem State.safe_iff {s : State} : s.Safe ↔ s.fault = none := by
  rw [State.Safe, Ne, State.status_faulted, not_not]

/-- Whatever the state, with a fault taken it is Faulted (R158). -/
theorem State.takeFault_status (s : State) (c : Cause) (n : Int) : (s.takeFault c n).status = .faulted :=
  State.status_faulted.2 (Option.some_ne_none _)

/-- No effect leaves a record, so where there was none before, a record means a fault taken from the state the meaning
began with (R159). -/
theorem takeFault_of_exec {i : Instr} {s t : State} (h : exec i s = .next t) (hs : s.fault = none)
    (ht : t.fault ≠ none) : ∃ (c : Cause) (n : Int), t = s.takeFault c n := by
  rcases exec_cases h with heff | ⟨r, -, rfl⟩
  · exact absurd (heff.frame.fault.trans hs) ht
  · exact ⟨r.cause, r.info, rfl⟩

/-! ## The checks of an instruction -/

theorem regOperandOk_iff {b : Byte} : regOperandOk b = true ↔ b.toNat < 8 := decide_eq_true_iff

theorem NamesReg.regOperandOk {b : Byte} {r : Fin 8} (h : NamesReg b r) : regOperandOk b = true :=
  regOperandOk_iff.2 (h.trans_lt r.isLt)

/-- Every check of the instruction passes: its register operands are 0 to 7, and the last entry of its row in R170's
table does not apply. -/
def ChecksPass (s : State) (i : Instr) : Prop := i.regOperands.all regOperandOk = true ∧ ownChecksPass s i

theorem all_regOperandOk_one {b : Byte} {r : Fin 8} (h : NamesReg b r) : [b].all regOperandOk = true := by
  simp [h.regOperandOk]

theorem all_regOperandOk_two {p q : Byte} {a b : Fin 8} (ha : NamesReg p a) (hb : NamesReg q b) :
    [p, q].all regOperandOk = true := by
  simp [ha.regOperandOk, hb.regOperandOk]

/-- An instruction has its effect only when every check passes. -/
theorem Effect.checksPass {s t : State} {i : Instr} (h : Effect s t i) : ChecksPass s i := by
  cases i with
  | hlt | nop => exact ⟨rfl, trivial⟩
  | ldi | prn =>
    obtain ⟨r, hr, -⟩ := h
    exact ⟨all_regOperandOk_one hr, trivial⟩
  | mul | add | sub =>
    obtain ⟨a, b, ha, hb, -⟩ := h
    exact ⟨all_regOperandOk_two ha hb, trivial⟩
  | div =>
    obtain ⟨a, b, ha, hb, hne, -⟩ := h
    exact ⟨all_regOperandOk_two ha hb, fun r hr => hb.unique hr ▸ hne⟩
  | push | pop =>
    obtain ⟨r, hr, hsp, -⟩ := h
    exact ⟨all_regOperandOk_one hr, hsp⟩
  | call =>
    obtain ⟨r, hr, hpc, hsp, -⟩ := h
    exact ⟨all_regOperandOk_one hr, hpc, hsp⟩
  | ret =>
    obtain ⟨hsp, -⟩ := h
    exact ⟨rfl, hsp⟩

/-- An instruction raises only when some check fails. -/
theorem Raises.not_checksPass {s : State} {r : Raised} {i : Instr} (h : Raises s r i) : ¬ ChecksPass s i := by
  rintro ⟨hops, hown⟩
  rcases h with ⟨b, hb, h8, -⟩ | ⟨hnot, -⟩
  · have hlt : b.toNat < 8 := regOperandOk_iff.1 (List.all_eq_true.1 hops b hb)
    omega
  · exact hnot hown

/-! ## The statements -/

/-- Settles O21: the meaning is an effect, which needs every check and leaves no record, or a raise, which needs a check
that fails and leaves one. -/
theorem instructionsFaultExactlyAsTheTableSays : Obligations.InstructionsFaultExactlyAsTheTableSays := by
  intro i s t hs h
  rw [State.safe_iff]
  rcases exec_cases h with heff | ⟨r, hraise, rfl⟩
  · exact iff_of_true (heff.frame.fault.trans hs) heff.checksPass
  · exact iff_of_false (Option.some_ne_none _) hraise.not_checksPass

/-- Settles O20: a step begins with no record, so the record it leaves was taken by the fetch or by the instruction. -/
theorem faultingStepsArePrecise : Obligations.FaultingStepsArePrecise := by
  intro s t h ht
  obtain ⟨⟨hs, -⟩, hfetch | ⟨i, -, hexec⟩⟩ := step_cases h
  · obtain ⟨e, -, rfl⟩ := hfetch
    exact ⟨hs, _, _, rfl⟩
  · exact ⟨hs, takeFault_of_exec hexec hs ht⟩

/-- Settles O19: fault entry writes the record alone, and a record makes the status Faulted, where no step is taken. -/
theorem takingAFaultChangesOnlyTheRecord : Obligations.TakingAFaultChangesOnlyTheRecord := by
  intro s c n
  have hst := s.takeFault_status c n
  exact ⟨rfl, fun _ => rfl, rfl, rfl, rfl, rfl, rfl, hst, step_of_faulted hst⟩

end Sys2Proof.Machine
end

section
/-! PROOFS. Reset, boot and the hazards (70_reset_and_hazards.md): what reset leaves, where boot places the image, and
that a run into zero cells climbs off the end of memory. First the reset state, the booted memory and a run of NOPs, said
once; then the statements. -/

namespace Sys2Proof.Machine

/-! ## Reset and boot -/

/-- The register file of the reset table (R23). -/
theorem State.resetWith_reg (c : Config) (j : Fin 8) : (State.resetWith c).reg j = if j = 7 then stackTop else 0 := by
  fin_cases j <;> rfl

theorem State.resetWith_status (c : Config) : (State.resetWith c).status = .running :=
  State.status_running.2 ⟨rfl, rfl⟩

/-- Written into cleared memory from address 0, the image's bytes are all that is not 0 (R182). -/
theorem Memory.read_writeBytes_nil {a : Nat} (image : List Byte) (ha : a < memSize) :
    (Memory.writeBytes [] 0 image).read a = image[a]?.getD 0 := by
  rw [Memory.read_writeBytes Memory.wf_nil 0 image a ha, if_pos a.zero_le]
  rfl

theorem State.boot_of_length_le (c : Config) {image : List Byte} (h : image.length ≤ 256) :
    State.boot c image = some { State.resetWith c with mem := Memory.writeBytes [] 0 image } := if_pos h

theorem State.boot_of_length_gt (c : Config) {image : List Byte} (h : 256 < image.length) :
    State.boot c image = none := if_neg (Nat.not_le.2 h)

/-! ## A run of NOPs -/

theorem State.advance_zero (s : State) : s.advance 0 = s :=
  State.ext_fields rfl (fun _ => rfl) (BitVec.add_zero s.pc) rfl rfl rfl rfl

theorem State.advance_advance (s : State) (m n : Nat) : (s.advance m).advance n = s.advance (m + n) := by
  have hpc : ((s.advance m).advance n).pc = (s.advance (m + n)).pc := by
    simp only [State.advance_pc, BitVec.ofNat_add, BitVec.add_assoc]
  exact State.ext_fields rfl (fun _ => rfl) hpc rfl rfl rfl rfl

/-- An advance that ends at 256 is a jump there. -/
theorem State.advance_to_end {s : State} (h : s.pc.toNat ≤ 256) : s.advance (256 - s.pc.toNat) = s.jump 256 := by
  have hpc : (s.advance (256 - s.pc.toNat)).pc = 256 := by
    apply BitVec.eq_of_toNat_eq
    rw [State.advance_pc_toNat (by omega), Nat.add_sub_cancel' h]
    rfl
  exact State.ext_fields rfl (fun _ => rfl) hpc rfl rfl rfl rfl

/-- The status looks at neither the program counter nor memory (R18). -/
@[simp] theorem State.advance_status (s : State) (n : Nat) : (s.advance n).status = s.status := rfl

@[simp] theorem State.jump_status (s : State) (p : PcWord) : (s.jump p).status = s.status := rfl

/-- Where NOP's opcode byte stands at `pc`, the step is the advance by one (R79). -/
theorem step_of_nop_opcode {s : State} (hs : s.status = .running) (hpc : s.pc.toNat ≤ 255)
    (hop : s.cfg.lookup (s.mem.read s.pc.toNat) = some .nop) : step s = .next (s.advance 1) := by
  have hd : decodeFrom s.cfg s.fetchByte = .ok .nop := decodeFrom_of_no_operands (State.fetchByte_zero hpc) hop rfl
  exact step_of_decode_ok hs (s.decode_window.trans hd)

/-- Where the `n` cells from `pc` on hold NOP's opcode byte, the run of `n` steps is the advance by `n`. -/
theorem run_through_nops {s : State} {n : Nat} (hs : s.status = .running) (hend : s.pc.toNat + n ≤ 256)
    (hnop : ∀ k, k < n → s.cfg.lookup (s.mem.read (s.pc.toNat + k)) = some .nop) : State.run n s = s.advance n := by
  induction n with
  | zero => rw [State.advance_zero, State.run]
  | succ n ih =>
    have hrun : State.run n s = s.advance n := ih (by omega) fun k hk => hnop k (by omega)
    have hpc : (s.advance n).pc.toNat = s.pc.toNat + n := State.advance_pc_toNat (by omega)
    have hop : s.cfg.lookup (s.mem.read (s.advance n).pc.toNat) = some .nop := by
      rw [hpc]
      exact hnop n n.lt_succ_self
    have hstep : step (s.advance n) = .next ((s.advance n).advance 1) :=
      step_of_nop_opcode ((s.advance_status n).trans hs) (by omega) hop
    rw [run_add, hrun, run_succ_of_step hstep, State.advance_advance, State.run]

/-! ## The statements -/

/-- Settles O31: each of the `256 - pc` zero cells is a NOP, and at 256 there is no opcode byte to fetch. -/
theorem runningOffTheEndOfMemoryFaults : Obligations.RunningOffTheEndOfMemoryFaults := by
  intro s hs hnop hpc hzero
  have hclimb : State.run (256 - s.pc.toNat) s = s.jump 256 := by
    rw [run_through_nops hs (by omega), State.advance_to_end hpc]
    intro k hk
    rw [hzero _ (by omega) (by omega), hnop]
  have hstep : step (s.jump 256) = .next ((s.jump 256).takeFault .memoryFault 256) :=
    (fetchAbove255TakesMemoryFault (s.jump 256)).1 ((s.jump_status 256).trans hs) (by rw [State.jump_pc]; decide)
  refine ⟨hclimb, ?_⟩
  rw [show 257 - s.pc.toNat = 256 - s.pc.toNat + 1 by omega, run_add, hclimb, run_succ_of_step hstep, State.run]

/-- Settles O7: the registers by the table's two cases, the other fields as `resetWith` gives them. -/
theorem resetLeavesTheTableValues : Obligations.ResetLeavesTheTableValues := by
  refine ⟨fun c => ⟨fun j hj => ?_, State.resetWith_reg c 7, fun _ => rfl, rfl, rfl, rfl, rfl,
    State.resetWith_status c, rfl⟩, rfl, fun _ => rfl⟩
  rw [State.resetWith_reg, if_neg hj]

/-- Settles O8: the booted state is the reset state with the image written into its cleared memory. -/
theorem bootPlacesTheImage : Obligations.BootPlacesTheImage := by
  refine fun c image => ⟨fun hlen => ⟨_, State.boot_of_length_le c hlen, fun a ha => ?_, fun a ha hlast => ?_,
    Memory.writeBytes_wf Memory.wf_nil 0 image, fun _ => rfl, rfl, rfl, rfl, rfl, rfl⟩, State.boot_of_length_gt c⟩
  · rw [Memory.read_writeBytes_nil image (ha.trans_le hlen), List.getElem?_eq_getElem ha, Option.getD_some]
  · rw [Memory.read_writeBytes_nil image (Nat.lt_succ_of_le hlast), List.getElem?_eq_none ha, Option.getD_none]

end Sys2Proof.Machine
end
